-- ==== Sys2Proof/Word.lean ====
section
/-! DEFINITION. The word of the SPU core and the widths of its fields (spec/00_scope.md R6, R7). -/

namespace Sys2Proof

/-- WORD_BITS = 16: a register, a memory cell, an instruction; PC_BITS is the same width (R6, R36). -/
abbrev Word := BitVec 16

/-- A byte of a program image. There are no bytes inside the core (R61). -/
abbrev Byte := BitVec 8

/-- OPCODE_BITS = 4: bits 15..12 of a word (R91). -/
abbrev Opcode := BitVec 4

/-- OPERAND_BITS = 12: bits 11..0 of a word (R91). -/
abbrev Operand := BitVec 12

end Sys2Proof
end

