-- ==== Sys2Proof/Config.lean ====
section
/-! DEFINITION. The parameters the spec leaves open as arguments of the model (spec/00_scope.md R6, spec/92_eei_decisions.md).
The spec leaves no value undefined, so there is no free value here. The numeric parameters (capacities, costs) stand in
Machine/Params.lean. -/

namespace Sys2Proof

/-- IMAGE_BYTE_ORDER: how two bytes of a program image make a word (R72, decision D2). -/
inductive ByteOrder where
  | little
  | big
  deriving DecidableEq, Repr

/-- What one build of the core fixes and the spec names as open. -/
structure Config.Params where
  /-- IMAGE_BYTE_ORDER (R72, D2). -/
  imageByteOrder : ByteOrder
  /-- HALT_STICKY: a run started after HLT returns at once instead of resuming (R116, D9). -/
  haltSticky : Bool
  /-- The build offers the test-only `imem_write` command (R74, D14). -/
  testBuild : Bool
  deriving DecidableEq, Repr

end Sys2Proof
end

