-- ==== Sys2Proof/Syntax.lean ====
section
/-! DEFINITION. The instructions of the SPU core, one constructor per row of spec/opcode_table.json, and the written form
of spec/30_encoding.md R96. -/

namespace Sys2Proof

/-- The instruction set (spec/30_encoding.md R94). The six ALU instructions and HLT ignore bits 11..0 of their word (R93),
so they carry no operand. Being 12 bits wide, an operand is in 0..0xFFF by its type (R92). -/
inductive Instr where
  | add
  | sub
  | and
  | or
  | xor
  | not
  | ldxI (imm : Operand)
  | ldyI (imm : Operand)
  | stx (imm : Operand)
  | sty (imm : Operand)
  | jmp (imm : Operand)
  | jic (imm : Operand)
  | jiz (imm : Operand)
  | hlt
  | ldxA (imm : Operand)
  | ldyA (imm : Operand)
  deriving DecidableEq, Repr

/-- The names of the opcode map (R94). -/
inductive Mnemonic where
  | ADD | SUB | AND | OR | XOR | NOT | LDX_I | LDY_I | STX | STY | JMP | JIC | JIZ | HLT | LDX_A | LDY_A
  deriving DecidableEq, Repr

/-- The name of an instruction. -/
def Instr.mnemonic : Instr → Mnemonic
  | .add => .ADD
  | .sub => .SUB
  | .and => .AND
  | .or => .OR
  | .xor => .XOR
  | .not => .NOT
  | .ldxI _ => .LDX_I
  | .ldyI _ => .LDY_I
  | .stx _ => .STX
  | .sty _ => .STY
  | .jmp _ => .JMP
  | .jic _ => .JIC
  | .jiz _ => .JIZ
  | .hlt => .HLT
  | .ldxA _ => .LDX_A
  | .ldyA _ => .LDY_A

/-- The operand of an instruction that uses one (R92, R93). -/
def Instr.operand : Instr → Option Operand
  | .add | .sub | .and | .or | .xor | .not | .hlt => none
  | .ldxI a | .ldyI a | .stx a | .sty a | .jmp a | .jic a | .jiz a | .ldxA a | .ldyA a => some a

/-- The written form of R96: a mnemonic, alone or followed by one operand given as a number. -/
structure Written where
  mnemonic : Mnemonic
  operand : Option Nat
  deriving DecidableEq, Repr

/-- An instruction as R96 writes it. -/
def Instr.written (i : Instr) : Written := { mnemonic := i.mnemonic, operand := i.operand.map BitVec.toNat }

end Sys2Proof
end

