-- ==== Sys2Proof/WellFormed.lean ====
section
/-! DEFINITION. Which written forms are instructions (spec/30_encoding.md R96). -/

namespace Sys2Proof

/-- The nine mnemonics that are followed by an operand; ADD, SUB, AND, OR, XOR, NOT and HLT stand alone (R96). -/
def Mnemonic.takesOperand : Mnemonic → Bool
  | .ADD | .SUB | .AND | .OR | .XOR | .NOT | .HLT => false
  | .LDX_I | .LDY_I | .STX | .STY | .JMP | .JIC | .JIZ | .LDX_A | .LDY_A => true

/-- R96: an operand stands exactly where the mnemonic takes one, and is a 12-bit value: "an operand outside that range is
not an instruction". -/
def Written.wellFormed (a : Written) : Bool :=
  match a.operand with
  | none => !a.mnemonic.takesOperand
  | some n => a.mnemonic.takesOperand && decide (n < 4096)

/-- An instruction is well-formed when its written form is. Operands being 12 bits wide by their type, every instruction
is. -/
def Instr.wellFormed (i : Instr) : Bool := i.written.wellFormed

end Sys2Proof
end

