-- ==== Sys2Proof/Decode.lean ====
section
/-! DEFINITION. From bits to instructions and back (spec/30_encoding.md): the two fields of a word, the opcode map, the
decoder, the encoder, the assembly of R96 and the bytes of a program image (spec/20_memory.md R72). -/

namespace Sys2Proof

/-- `op = w[15:12]` (R91). -/
def opcodeField (w : Word) : Opcode := w.extractLsb' 12 4

/-- `w[11:0]`, the operand before its zero extension (R91, R92). -/
def operandField (w : Word) : Operand := w.extractLsb' 0 12

/-- Decoding (R94, R95): the four bits 15, 14, 13, 12 of the word select one of the sixteen rows; every word is legal. -/
def decode (w : Word) : Instr :=
  match w.getLsbD 15, w.getLsbD 14, w.getLsbD 13, w.getLsbD 12 with
  | false, false, false, false => .add
  | false, false, false, true => .sub
  | false, false, true, false => .and
  | false, false, true, true => .or
  | false, true, false, false => .xor
  | false, true, false, true => .not
  | false, true, true, false => .ldxI (operandField w)
  | false, true, true, true => .ldyI (operandField w)
  | true, false, false, false => .stx (operandField w)
  | true, false, false, true => .sty (operandField w)
  | true, false, true, false => .jmp (operandField w)
  | true, false, true, true => .jic (operandField w)
  | true, true, false, false => .jiz (operandField w)
  | true, true, false, true => .hlt
  | true, true, true, false => .ldxA (operandField w)
  | true, true, true, true => .ldyA (operandField w)

/-- One row of spec/opcode_table.json: a word `w` selects it when `w & mask == pattern` (R91). -/
structure OpcodeRow where
  mnemonic : Mnemonic
  pattern : Word
  mask : Word
  deriving DecidableEq, Repr

/-- The rows of spec/opcode_table.json, in its order. -/
def opcodeRows : List OpcodeRow :=
  [⟨.ADD, 0x0000, 0xF000⟩, ⟨.SUB, 0x1000, 0xF000⟩, ⟨.AND, 0x2000, 0xF000⟩, ⟨.OR, 0x3000, 0xF000⟩,
   ⟨.XOR, 0x4000, 0xF000⟩, ⟨.NOT, 0x5000, 0xF000⟩, ⟨.LDX_I, 0x6000, 0xF000⟩, ⟨.LDY_I, 0x7000, 0xF000⟩] ++
  [⟨.STX, 0x8000, 0xF000⟩, ⟨.STY, 0x9000, 0xF000⟩, ⟨.JMP, 0xA000, 0xF000⟩, ⟨.JIC, 0xB000, 0xF000⟩,
   ⟨.JIZ, 0xC000, 0xF000⟩, ⟨.HLT, 0xD000, 0xF000⟩, ⟨.LDX_A, 0xE000, 0xF000⟩, ⟨.LDY_A, 0xF000, 0xF000⟩]

/-- The value of the opcode field of each mnemonic (R94). -/
def opcodeOf : Mnemonic → Opcode
  | .ADD => 0x0
  | .SUB => 0x1
  | .AND => 0x2
  | .OR => 0x3
  | .XOR => 0x4
  | .NOT => 0x5
  | .LDX_I => 0x6
  | .LDY_I => 0x7
  | .STX => 0x8
  | .STY => 0x9
  | .JMP => 0xA
  | .JIC => 0xB
  | .JIZ => 0xC
  | .HLT => 0xD
  | .LDX_A => 0xE
  | .LDY_A => 0xF

/-- R96: the encoding is `(op << 12) | imm`. -/
def encodeFields (op : Opcode) (imm : Operand) : Word := (op.setWidth 16 <<< 12) ||| imm.setWidth 16

/-- The word of an instruction; bits 11..0 are written 0 where the instruction ignores them (R93). -/
def encode (i : Instr) : Word := encodeFields (opcodeOf i.mnemonic) (i.operand.getD 0)

/-- The instruction a written form stands for, none where R96 says it is not an instruction. -/
def assemble (a : Written) : Option Instr :=
  if a.wellFormed then
    some (decode (encodeFields (opcodeOf a.mnemonic) (BitVec.ofNat 12 (a.operand.getD 0))))
  else none

/-- Two bytes of a program image, in the order they stand there, as a word (R72). -/
def wordOfBytes (order : ByteOrder) (first second : Byte) : Word :=
  match order with
  | .little => BitVec.ofNat 16 (first.toNat + 256 * second.toNat)
  | .big => BitVec.ofNat 16 (256 * first.toNat + second.toNat)

/-- The words of a byte image: two bytes a word, the last byte of an odd-length image ignored (R72). -/
def wordsOfBytes (order : ByteOrder) : List Byte → List Word
  | b₀ :: b₁ :: rest => wordOfBytes order b₀ b₁ :: wordsOfBytes order rest
  | _ => []

/-- Why bytes do not give an instruction. No word is rejected (R95), so only the length can be wrong. -/
inductive DecodeError where
  /-- Fewer than the two bytes of a word are left (R72: such a byte belongs to no word). -/
  | truncated
  deriving DecidableEq, Repr

/-- The first instruction of a byte image and the bytes after it (DESIGN CHOICE, entry 10). -/
def decodeBytes (order : ByteOrder) : List Byte → Except DecodeError (Instr × List Byte)
  | b₀ :: b₁ :: rest => .ok (decode (wordOfBytes order b₀ b₁), rest)
  | _ => .error .truncated

/-- The decoder on an instruction numbered as spec/opcode_table.json numbers its bits. Every instruction is one word
(R90), so more than 16 bits, or none, are no instruction (DESIGN CHOICE, entry 10). -/
def decodeTableWord (nbits w : Nat) : Option Instr :=
  if 0 < nbits ∧ nbits ≤ 16 then some (decode (BitVec.ofNat 16 (w % 2 ^ nbits))) else none

end Sys2Proof
end

