-- ==== Sys2Proof/Machine/Params.lean ====
section
/-! DEFINITION. The numeric parameters of spec/00_scope.md R6 and the default of each open parameter. They are the source's
unaudited literals (D15), so they stand here, once, where a later repair may mend them. -/

namespace Sys2Proof.Machine

/-- IMEM_WORDS (R6, R61). -/
def imemWords : Nat := 192

/-- DMEM_WORDS (R6, R61). -/
def dmemWords : Nat := 192

/-- The largest word, the bound of ADD's carry (R142). -/
def maxWord : Nat := 0xFFFF

/-- Every fetch costs 1 cycle (R111). -/
def fetchCost : Nat := 1

/-- COST_EXTRA: what each instruction adds to the cost of its fetch (R112). JIC and JIZ are charged taken or not. -/
def extraCost : Instr → Nat
  | .add | .sub | .and | .or | .xor | .not => 1
  | .ldxI _ | .ldyI _ => 0
  | .stx _ | .sty _ => 4
  | .jmp _ | .jic _ | .jiz _ => 1
  | .hlt => 0
  | .ldxA _ | .ldyA _ => 4

/-- The stated default of every open parameter (R6: D2, D9; R74: the production build). -/
def defaultParams : Config.Params := { imageByteOrder := .little, haltSticky := false, testBuild := false }

end Sys2Proof.Machine
end

