-- ==== Sys2Proof/Machine/State.lean ====
section
/-! DEFINITION. The state of the SPU core (spec/10_state.md R30) as plain data, its value after construction with an empty
program image (R43), and the reasons a step can stop. -/

namespace Sys2Proof.Machine

/-- The run status (R40), with the "not running" of R43 for a core on which no run has been started since construction or
the last reset. -/
inductive Status where
  | notRunning
  | running
  | halted
  deriving DecidableEq, Repr

/-- The contents of a store (IMEM or DMEM): its non-zero words by address, addresses strictly rising. An address that is
not listed holds 0x0000, which is what construction puts in every cell the image does not fill (R71, R75). The cell is
the 16-bit word, the unit of every access; there are no bytes inside the core (R61). DESIGN CHOICE, entry 1. See
`Memory.wf` in Machine/Ops.lean. -/
abbrev Memory := List (Nat × Word)

/-- The state of R30. -/
structure State where
  /-- The program counter (R36). -/
  pc : Word
  /-- The accumulator X (R31). -/
  x : Word
  /-- Register Y (R32). -/
  y : Word
  /-- The address register P (R34). -/
  p : Word
  /-- The carry flag C (R38). -/
  c : Bool
  /-- The zero flag Z (R39). -/
  z : Bool
  /-- The instruction store (R42). -/
  imem : Memory
  /-- The data store (R42). -/
  dmem : Memory
  /-- The run status (R40). -/
  status : Status
  /-- The cycle counter of the run in progress (R118), 0 between runs. DESIGN CHOICE, entry 2. -/
  cycles : Nat
  deriving DecidableEq, Repr

/-- Why a step faults: never. "No fault state exists" (R200), and no step can fail or abort (R120), so there is no
constructor. -/
inductive Fault where
  deriving DecidableEq, Repr

/-- Why a step is refused. -/
inductive Refusal where
  /-- Raised only by an arm of `exec` whose instruction has no meaning yet (safe: the model stops where the core goes on).
  Every instruction has its meaning, so no arm raises it. -/
  | notModelled (mnemonic : String)
  deriving DecidableEq, Repr

/-- The core after construction with an empty program image (R43, R230). -/
def State.reset : State where
  pc := 0x0000
  x := 0x0000
  y := 0x0000
  p := 0x0000
  c := false
  z := false
  imem := []
  dmem := []
  status := .notRunning
  cycles := 0

/-- `PC <- v`. -/
def State.setPc (s : State) (v : Word) : State := { s with pc := v }

/-- `X <- v`. -/
def State.setX (s : State) (v : Word) : State := { s with x := v }

/-- `Y <- v`. -/
def State.setY (s : State) (v : Word) : State := { s with y := v }

/-- `P <- v`. -/
def State.setP (s : State) (v : Word) : State := { s with p := v }

/-- `C <- v`. -/
def State.setC (s : State) (v : Bool) : State := { s with c := v }

/-- `Z <- v`. -/
def State.setZ (s : State) (v : Bool) : State := { s with z := v }

/-- The instruction store is replaced. -/
def State.setImem (s : State) (m : Memory) : State := { s with imem := m }

/-- The data store is replaced. -/
def State.setDmem (s : State) (m : Memory) : State := { s with dmem := m }

/-- `status <- v`. -/
def State.setStatus (s : State) (v : Status) : State := { s with status := v }

/-- `cycles <- n`. -/
def State.setCycles (s : State) (n : Nat) : State := { s with cycles := n }

end Sys2Proof.Machine
end

