-- ==== Sys2Proof/Machine/Flags.lean ====
section
/-! DEFINITION. The results of ADD and SUB and the two flags (spec/41_alu.md). Sums and differences are taken exactly, on
unbounded integers, and reduced to a word at the end (R8, R141). -/

namespace Sys2Proof.Machine

/-- `(X + Y) mod 2^16` (R142, D4). -/
def addResult (x y : Word) : Word := BitVec.ofNat 16 (x.toNat + y.toNat)

/-- ADD's carry: the unbounded sum exceeds 0xFFFF (R142, D5). -/
def addCarry (x y : Word) : Bool := decide (maxWord < x.toNat + y.toNat)

/-- `(X - Y) mod 2^16` (R143, D4). -/
def subResult (x y : Word) : Word := BitVec.ofInt 16 ((x.toNat : Int) - (y.toNat : Int))

/-- SUB's carry, a borrow: X is less than Y before the subtraction (R143, D5, D6, C5). -/
def subCarry (x y : Word) : Bool := decide (x.toNat < y.toNat)

/-- `~v` is `v ^ 0xFFFF` (R8). -/
def complement (v : Word) : Word := v ^^^ 0xFFFF

/-- The zero flag of an ALU instruction, of the X it writes (R140). -/
def zeroFlag (newX : Word) : Bool := newX == 0

end Sys2Proof.Machine
end

