-- ==== Sys2Proof/Machine/Ops.lean ====
section
/-! DEFINITION. The operations every meaning is made of: the two stores and their bounds-checked controllers
(spec/20_memory.md), the load of a program image, the fetch and advance of spec/40_execution_cycle.md R111, the charge of
an instruction's cost (R112), the write of an ALU result (spec/41_alu.md R140) and the halt (spec/45_halt.md R180).
The core takes no exceptions and returns from none (spec/60_exceptions.md R200 to R204), so there is no such operation. -/

namespace Sys2Proof.Machine

/-- The word a store holds at an address: an address that is not listed holds 0x0000. -/
def Memory.get : Memory → Nat → Word
  | [], _ => 0#16
  | (b, v) :: m, a => if b = a then v else Memory.get m a

/-- A store without its entry at an address. -/
def Memory.erase (m : Memory) (a : Nat) : Memory := m.filter fun cell => cell.1 != a

/-- Puts an entry before the first one at a higher address. -/
def Memory.insert (a : Nat) (v : Word) : Memory → Memory
  | [] => [(a, v)]
  | cell :: m => if a < cell.1 then (a, v) :: cell :: m else cell :: Memory.insert a v m

/-- A store with the word at an address replaced. Writing 0x0000 removes the entry, so equal stores are equal lists. -/
def Memory.set (m : Memory) (a : Nat) (v : Word) : Memory :=
  if v = 0#16 then Memory.erase m a else Memory.insert a v (Memory.erase m a)

/-- The canonical form of a store of `capacity` words: addresses strictly rising and in range, no zero word listed. -/
def Memory.wf (capacity : Nat) (m : Memory) : Bool :=
  decide (m.Pairwise fun a b => a.1 < b.1) && m.all fun cell => decide (cell.1 < capacity) && cell.2 != 0#16

/-- `IMemRead(a)` (R63). -/
def imemRead (s : State) (a : Word) : Word :=
  if a.toNat < imemWords then Memory.get s.imem a.toNat else 0#16

/-- The test-only write of the instruction store, out of range ignored (R74, D14). -/
def imemWrite (s : State) (a v : Word) : State :=
  if a.toNat < imemWords then s.setImem (Memory.set s.imem a.toNat v) else s

/-- `MemRead(a, 1)` (R64). -/
def dmemRead (s : State) (a : Word) : Word :=
  if a.toNat < dmemWords then Memory.get s.dmem a.toNat else 0#16

/-- `MemWrite(a, 1, v)`: discarded, without an error, when out of range (R65). -/
def dmemWrite (s : State) (a v : Word) : State :=
  if a.toNat < dmemWords then s.setDmem (Memory.set s.dmem a.toNat v) else s

/-- The words of an image from address `i` on, as a store: none at or beyond the capacity, zero words not listed. -/
def loadWordsFrom (i : Nat) : List Word → Memory
  | [] => []
  | w :: ws =>
    if i < imemWords then
      if w = 0#16 then loadWordsFrom (i + 1) ws else (i, w) :: loadWordsFrom (i + 1) ws
    else []

/-- `load(words)` (R71): from index 0, the rest of the store zero, words beyond the capacity ignored. -/
def loadWords (words : List Word) : Memory := loadWordsFrom 0 words

/-- `loadFromBytes(bytes)` (R72). -/
def loadBytes (order : ByteOrder) (bytes : List Byte) : Memory := loadWords (wordsOfBytes order bytes)

/-- `cycles <- cycles + n`. -/
def addCycles (s : State) (n : Nat) : State := s.setCycles (s.cycles + n)

/-- Charges the cost an instruction adds to its fetch (R112). -/
def charge (i : Instr) (s : State) : State := addCycles s (extraCost i)

/-- The instruction at the program counter (R111, R91). -/
def fetched (s : State) : Instr := decode (imemRead s s.pc)

/-- What every fetch does before the instruction is interpreted: charge 1 cycle and advance PC by one, from 0xFFFF to
0x0000 (R111, D3). -/
def advance (s : State) : State := (addCycles s fetchCost).setPc (s.pc + 1)

/-- Writes the result of an ALU instruction: X, and Z from the new X (R140). -/
def writeAluResult (result : Word) (s : State) : State := (s.setX result).setZ (zeroFlag result)

/-- `PC <- target`, overriding the advance (R111, R170). -/
def jumpTo (target : Word) (s : State) : State := s.setPc target

/-- `if condition: PC <- target` (R171, R172). -/
def jumpIf (condition : Bool) (target : Word) (s : State) : State := if condition then jumpTo target s else s

/-- `P <- address`, then the write through the new P (R160, R161, R192). -/
def storeAt (address value : Word) (s : State) : State := dmemWrite (s.setP address) address value

/-- `halt`: the run status becomes Halted (R8, R180). -/
def halt (s : State) : State := s.setStatus .halted

end Sys2Proof.Machine
end

