-- ==== Sys2Proof/Machine/Alu.lean ====
section
/-! DEFINITION. The ALU instructions (spec/41_alu.md): each reads X (and Y, but for NOT), writes X, and recomputes Z from
the new X; ADD and SUB also write C, from the operands read before X is written (R141). -/

namespace Sys2Proof.Machine

/-- ADD (R142). -/
def execAdd (s : State) : Host.Outcome State Fault Refusal :=
  .next (charge .add (writeAluResult (addResult s.x s.y) (s.setC (addCarry s.x s.y))))

/-- SUB (R143). -/
def execSub (s : State) : Host.Outcome State Fault Refusal :=
  .next (charge .sub (writeAluResult (subResult s.x s.y) (s.setC (subCarry s.x s.y))))

/-- AND (R144). -/
def execAnd (s : State) : Host.Outcome State Fault Refusal :=
  .next (charge .and (writeAluResult (s.x &&& s.y) s))

/-- OR (R145). -/
def execOr (s : State) : Host.Outcome State Fault Refusal :=
  .next (charge .or (writeAluResult (s.x ||| s.y) s))

/-- XOR (R146). -/
def execXor (s : State) : Host.Outcome State Fault Refusal :=
  .next (charge .xor (writeAluResult (s.x ^^^ s.y) s))

/-- NOT (R147). -/
def execNot (s : State) : Host.Outcome State Fault Refusal :=
  .next (charge .not (writeAluResult (complement s.x) s))

end Sys2Proof.Machine
end

