-- ==== Sys2Proof/Machine/Operands.lean ====
section
/-! DEFINITION. The three uses of the 12-bit operand (spec/30_encoding.md R92): always zero-extended, never sign-extended,
scaled or shifted. -/

namespace Sys2Proof.Machine

/-- `zext_16` (R8). -/
def zext16 (imm : Operand) : Word := imm.setWidth 16

/-- The operand as the value of LDX_I and LDY_I (R150, R151). -/
def immediateValue (imm : Operand) : Word := zext16 imm

/-- The operand as the data address of STX, STY, LDX_A and LDY_A, the one addressing mode (R192). -/
def dataAddress (imm : Operand) : Word := zext16 imm

/-- The operand as the absolute target of JMP, JIC and JIZ (R173). -/
def jumpTarget (imm : Operand) : Word := zext16 imm

end Sys2Proof.Machine
end

