-- ==== Sys2Proof/Machine/Branch.lean ====
section
/-! DEFINITION. The control-transfer instructions (spec/44_branch.md): absolute targets, the same cost taken or not. -/

namespace Sys2Proof.Machine

/-- JMP (R170). -/
def execJmp (imm : Operand) (s : State) : Host.Outcome State Fault Refusal :=
  .next (charge (.jmp imm) (jumpTo (jumpTarget imm) s))

/-- JIC (R171). -/
def execJic (imm : Operand) (s : State) : Host.Outcome State Fault Refusal :=
  .next (charge (.jic imm) (jumpIf s.c (jumpTarget imm) s))

/-- JIZ (R172). -/
def execJiz (imm : Operand) (s : State) : Host.Outcome State Fault Refusal :=
  .next (charge (.jiz imm) (jumpIf s.z (jumpTarget imm) s))

end Sys2Proof.Machine
end

