-- ==== Sys2Proof/Machine/Halt.lean ====
section
/-! DEFINITION. The halt instruction (spec/45_halt.md): the status becomes Halted, which ends the run (R114). -/

namespace Sys2Proof.Machine

/-- HLT (R180). -/
def execHlt (s : State) : Host.Outcome State Fault Refusal :=
  .next (charge .hlt (halt s))

end Sys2Proof.Machine
end

