-- ==== Sys2Proof/Machine/LoadImmediate.lean ====
section
/-! DEFINITION. The load-immediate instructions (spec/42_load_immediate.md): no flag is written. -/

namespace Sys2Proof.Machine

/-- LDX_I (R150). -/
def execLdxI (imm : Operand) (s : State) : Host.Outcome State Fault Refusal :=
  .next (charge (.ldxI imm) (s.setX (immediateValue imm)))

/-- LDY_I (R151). -/
def execLdyI (imm : Operand) (s : State) : Host.Outcome State Fault Refusal :=
  .next (charge (.ldyI imm) (s.setY (immediateValue imm)))

end Sys2Proof.Machine
end

