-- ==== Sys2Proof/Machine/LoadMemory.lean ====
section
/-! DEFINITION. The load-from-memory instructions (spec/46_load_memory.md): P is set first, then one word is read through
it; no flag is written. -/

namespace Sys2Proof.Machine

/-- LDX_A (R190). -/
def execLdxA (imm : Operand) (s : State) : Host.Outcome State Fault Refusal :=
  .next (charge (.ldxA imm) ((s.setP (dataAddress imm)).setX (dmemRead s (dataAddress imm))))

/-- LDY_A (R191). -/
def execLdyA (imm : Operand) (s : State) : Host.Outcome State Fault Refusal :=
  .next (charge (.ldyA imm) ((s.setP (dataAddress imm)).setY (dmemRead s (dataAddress imm))))

end Sys2Proof.Machine
end

