-- ==== Sys2Proof/Machine/Store.lean ====
section
/-! DEFINITION. The store instructions (spec/43_store.md): P is set first, then one word is written through it. -/

namespace Sys2Proof.Machine

/-- STX (R160). -/
def execStx (imm : Operand) (s : State) : Host.Outcome State Fault Refusal :=
  .next (charge (.stx imm) (storeAt (dataAddress imm) s.x s))

/-- STY (R161). -/
def execSty (imm : Operand) (s : State) : Host.Outcome State Fault Refusal :=
  .next (charge (.sty imm) (storeAt (dataAddress imm) s.y s))

end Sys2Proof.Machine
end

