-- ==== Sys2Proof/Machine/Dispatch.lean ====
section
/-! DEFINITION. Decode and dispatch (spec/40_execution_cycle.md R113): the effect of an instruction on a state whose PC the
fetch has already advanced (R37). -/

namespace Sys2Proof.Machine

def exec (i : Instr) (s : State) : Host.Outcome State Fault Refusal :=
  match i with
  | .add => Sys2Proof.Machine.execAdd s
  | .sub => Sys2Proof.Machine.execSub s
  | .and => Sys2Proof.Machine.execAnd s
  | .or => Sys2Proof.Machine.execOr s
  | .xor => Sys2Proof.Machine.execXor s
  | .not => Sys2Proof.Machine.execNot s
  | .ldxI imm => Sys2Proof.Machine.execLdxI imm s
  | .ldyI imm => Sys2Proof.Machine.execLdyI imm s
  | .stx imm => Sys2Proof.Machine.execStx imm s
  | .sty imm => Sys2Proof.Machine.execSty imm s
  | .jmp imm => Sys2Proof.Machine.execJmp imm s
  | .jic imm => Sys2Proof.Machine.execJic imm s
  | .jiz imm => Sys2Proof.Machine.execJiz imm s
  | .hlt => Sys2Proof.Machine.execHlt s
  | .ldxA imm => Sys2Proof.Machine.execLdxA imm s
  | .ldyA imm => Sys2Proof.Machine.execLdyA imm s

end Sys2Proof.Machine
end

