-- ==== Sys2Proof/Machine/Step.lean ====
section
/-! DEFINITION. One step of a run (spec/40_execution_cycle.md R110, R111), and the placing of one instruction where the
next step fetches. -/

namespace Sys2Proof.Machine

/-- R111: read the word at PC, charge the fetch, advance PC, and perform the instruction. A step happens only inside a run
(R110): on a core that is Halted or not running nothing happens until the host's next command (R212). DEDUCED, entry 3. -/
def step (s : State) : Host.Outcome State Fault Refusal :=
  match s.status with
  | .running => exec (fetched s) (advance s)
  | .halted => .next s
  | .notRunning => .next s

/-- The state with one instruction word placed in the instruction store at PC and a run in progress, so that the very next
step fetches and runs it. IMEM ends at address 191, so from a PC beyond it the word is placed at address 0 and PC is set
there. It stands for the host's construction from an image and the start of a run (R230, R114).
DESIGN CHOICE, entry 5. -/
def State.withFetchWord (s : State) (nbits w : Nat) : State :=
  let a : Word := if s.pc.toNat < imemWords then s.pc else 0
  ((imemWrite s a (BitVec.ofNat 16 (w % 2 ^ nbits))).setPc a).setStatus .running

end Sys2Proof.Machine
end

