-- ==== Sys2Proof/Machine/HostCommands.lean ====
section
/-! DEFINITION. The host's commands (spec/70_reset_and_hazards.md R235): construct, reset, run (spec/40_execution_cycle.md
R114 to R118), read, and the imem_write of test builds. Each is one atomic operation on the state. -/

namespace Sys2Proof.Machine

/-- A program image, as words (R71) or as bytes (R72). -/
inductive Image where
  | words (ws : List Word)
  | bytes (bs : List Byte)
  deriving DecidableEq, Repr

/-- The instruction store an image loads. -/
def imageMemory (params : Config.Params) : Image → Memory
  | .words ws => loadWords ws
  | .bytes bs => loadBytes params.imageByteOrder bs

/-- Construction (R230): IMEM from the image, everything else zero or false, no run in progress. -/
def construct (params : Config.Params) (image : Image) : State :=
  { pc := 0, x := 0, y := 0, p := 0, c := false, z := false, imem := imageMemory params image, dmem := [],
    status := .notRunning, cycles := 0 }

/-- The reset command (R231, C2): PC, X, Y, C and Z; P and both stores are left untouched. The status is not running
afterwards, a Halted status included (R43). DEDUCED, entry 4. -/
def resetCommand (s : State) : State :=
  ((((((s.setPc 0).setX 0).setY 0).setC false).setZ false).setStatus .notRunning).setCycles 0

/-- How a run ends (R121). -/
inductive RunOutcome where
  | halted
  | budgetExhausted
  deriving DecidableEq, Repr

/-- What a run leaves and returns (R121): the state, the count of cycles, the outcome. -/
structure RunReturn where
  state : State
  cycles : Nat
  outcome : RunOutcome
  deriving DecidableEq, Repr

/-- The start of a run command (R114): `cycles <- 0`, `status <- Running`. -/
def beginRun (s : State) : State := (s.setCycles 0).setStatus .running

/-- The test before each fetch: `max > 0 and cycles >= max` (R114, R115, D7). -/
def budgetSpent (max : Nat) (s : State) : Bool := decide (0 < max) && decide (max ≤ s.cycles)

/-- The loop of R114, at most `fuel` rounds of it: none where it has not returned by then. A run that never returns (R119,
D16) is none at every fuel. DESIGN CHOICE, entry 7. -/
def runLoop (max : Nat) : Nat → State → Option RunReturn
  | 0, _ => none
  | fuel + 1, s =>
    if budgetSpent max s then some { state := s, cycles := s.cycles, outcome := .budgetExhausted }
    else
      match step s with
      | .next t =>
        if t.status = .halted then some { state := t, cycles := t.cycles, outcome := .halted }
        else runLoop max fuel t
      | .fault _ => none
      | .refused _ => none

/-- The counter is not kept in the core's state between runs (R118; entry 2). -/
def endRun (r : RunReturn) : RunReturn := { r with state := r.state.setCycles 0 }

/-- The run command (R114, R116): with HALT_STICKY, a run started on a Halted core returns at once, without a step; else
the core runs from the current PC. A budget of 0 is unbounded. -/
def runCommand (params : Config.Params) (fuel max : Nat) (s : State) : Option RunReturn :=
  if params.haltSticky = true ∧ s.status = .halted then some { state := s, cycles := 0, outcome := .halted }
  else (runLoop max fuel (beginRun s)).map endRun

/-- What the host may read between runs (R41, R235). IMEM is not among it. -/
inductive Readable where
  | pc
  | x
  | y
  | p
  | c
  | z
  | dmem (address : Word)
  deriving DecidableEq, Repr

/-- What a read gives. -/
inductive ReadValue where
  | word (v : Word)
  | flag (v : Bool)
  deriving DecidableEq, Repr

/-- The read command (R41): no state changes. A DMEM word is read through its controller (DEDUCED, entry 8). -/
def readCommand (s : State) : Readable → ReadValue
  | .pc => .word s.pc
  | .x => .word s.x
  | .y => .word s.y
  | .p => .word s.p
  | .c => .flag s.c
  | .z => .flag s.z
  | .dmem a => .word (dmemRead s a)

/-- The commands of R235. -/
inductive Command where
  | construct (image : Image)
  | reset
  /-- An absent budget is unbounded, as 0 is (R114). -/
  | run (budget : Option Nat)
  | read (what : Readable)
  | imemWrite (address value : Word)
  deriving DecidableEq, Repr

/-- What the host gets back (R235). -/
inductive Reply where
  | nothing
  | ran (cycles : Nat) (outcome : RunOutcome)
  | value (v : ReadValue)
  deriving DecidableEq, Repr

/-- How a command goes: it is done; it is a run that has not returned within the fuel (R119); or this build does not offer
it (R74). -/
inductive CommandResult where
  | done (state : State) (reply : Reply)
  | stillRunning
  | notOffered
  deriving DecidableEq, Repr

/-- One host command (R235), with `fuel` rounds of the run loop. A production build does not offer the test-only write
(R74; DESIGN CHOICE, entry 9). -/
def hostCommand (params : Config.Params) (fuel : Nat) (command : Command) (s : State) : CommandResult :=
  match command with
  | .construct image => .done (construct params image) .nothing
  | .reset => .done (resetCommand s) .nothing
  | .run budget =>
    match runCommand params fuel (budget.getD 0) s with
    | some r => .done r.state (.ran r.cycles r.outcome)
    | none => .stillRunning
  | .read what => .done s (.value (readCommand s what))
  | .imemWrite a v => if params.testBuild then .done (imemWrite s a v) .nothing else .notOffered

end Sys2Proof.Machine
end

