-- ==== Sys2Proof/Safety.lean ====
section
/-! DEFINITION. What claims mean by a good state, a safe run and two states that agree. -/

namespace Sys2Proof.Machine

/-- What every reachable state satisfies: both stores keep their canonical form, so that no cell outside addresses 0..191
exists (R42), and P holds a value in 0..0xFFF (R34, R43). -/
structure State.Inv (s : State) : Prop where
  imem_wf : Memory.wf imemWords s.imem = true
  dmem_wf : Memory.wf dmemWords s.dmem = true
  p_le : s.p.toNat ≤ 0xFFF

/-- No number of steps ends in a fault or a refusal (R120). -/
def State.NeverStops (s : State) : Prop := ∀ k, ∃ t, Sys2Proof.core.run k s = .next t

/-- The two states are equal but for the value of P (R34). -/
def State.EqualButP (s t : State) : Prop := t = s.setP t.p

/-- The run of the instructions from `s` that `k` steps make, none of the states before the last one being Halted or having
spent the budget `max` (R114): what a run command has done when it has executed `k` instructions. -/
def State.Runs (max : Nat) (s : State) (k : Nat) (t : State) : Prop :=
  Sys2Proof.core.run k s = .next t ∧
    ∀ j < k, ∃ u, Sys2Proof.core.run j s = .next u ∧ u.status = .running ∧ (0 < max → u.cycles < max)

end Sys2Proof.Machine
end

