-- ==== Sys2Proof/Certificates/Slice0/Obligations.lean ====
section
/-! DEFINITION. The statements for the provers, from the numbered rules of spec/. Where a docstring says that a clause rests
on a decision D<n> of spec/92_eei_decisions.md or on an entry of notes/assumptions, that clause is the spec's own choice or
the model's, not the source's. -/

open Sys2Proof Sys2Proof.Machine

/-! ### Encoding -/

/-- Decoding the word of a well-formed instruction gives the instruction back, whatever its operand, and every instruction
is well-formed. -/
def Obligations.DecodeOfEncodeIsIdentity : Prop :=
  (∀ i : Instr, i.wellFormed = true → decode (encode i) = i) ∧ ∀ i : Instr, i.wellFormed = true

/-- Encoding a decoded word gives the word back; in the seven rows that ignore their operand (D10) bits 11..0 come back 0. -/
def Obligations.EncodeOfDecodeKeepsUsedBits : Prop :=
  ∀ w : Word, encode (decode w) =
    if w.toNat < 0x6000 ∨ (0xD000 ≤ w.toNat ∧ w.toNat < 0xE000) then w &&& 0xF000 else w

/-- Every word selects exactly one row of the opcode table by `w & mask == match`, and the decoder answers that row's
instruction, with bits 11..0 as the operand where it has one. -/
def Obligations.EveryWordSelectsExactlyOneRow : Prop :=
  ∀ w : Word,
    (opcodeRows.filter fun r => w &&& r.mask == r.pattern).map (fun r => r.mnemonic) = [(decode w).mnemonic] ∧
    (∀ a : Operand, (decode w).operand = some a → a.toNat = w.toNat % 4096) ∧
    (opcodeOf (decode w).mnemonic).toNat = w.toNat / 4096

/-- Words written out from the spec's encodings (30_encoding.md R94; the scenarios of 95_test_vectors.md) decode to the
instructions they stand for. -/
def Obligations.WrittenOutWordsDecode : Prop :=
  decode 0x0000 = .add ∧ decode 0x0FFF = .add ∧ decode 0x1000 = .sub ∧ decode 0x3000 = .or ∧ decode 0x5000 = .not ∧
  decode 0x6FFF = .ldxI 0xFFF ∧ decode 0x700F = .ldyI 0x00F ∧ decode 0x8001 = .stx 0x001 ∧ decode 0x90BF = .sty 0x0BF ∧
  decode 0xA004 = .jmp 0x004 ∧ decode 0xBFF0 = .jic 0xFF0 ∧ decode 0xC00E = .jiz 0x00E ∧ decode 0xD123 = .hlt ∧
  decode 0xE001 = .ldxA 0x001 ∧ decode 0xF0C0 = .ldyA 0x0C0

/-- The written form MNEMONIC or MNEMONIC imm (R96, D11): it stands for an instruction exactly when it is well-formed, that
instruction is written that way, and every instruction has a written form. -/
def Obligations.WrittenFormsStandForInstructions : Prop :=
  (∀ a : Written, a.wellFormed = true → ∃ i, assemble a = some i ∧ i.written = a) ∧
  (∀ a : Written, a.wellFormed = false → assemble a = none) ∧
  (∀ i : Instr, assemble i.written = some i) ∧
  ∀ (m : Mnemonic) (n : Nat), 4096 ≤ n → assemble { mnemonic := m, operand := some n } = none

/-! ### The two stores and the program image -/

/-- The controllers' reads (R63, R64): the cell where the address is in range, 0x0000 where it is not. -/
def Obligations.ControllerReadsAreBoundsChecked : Prop :=
  ∀ (s : State) (a : Word),
    (a.toNat < 192 → imemRead s a = Memory.get s.imem a.toNat ∧ dmemRead s a = Memory.get s.dmem a.toNat) ∧
    (192 ≤ a.toNat → imemRead s a = 0 ∧ dmemRead s a = 0)

/-- The data store's write (R65, R66): the cell alone where the address is in range, nothing at all where it is not. -/
def Obligations.DataStoreWriteThenRead : Prop :=
  ∀ (s : State) (a v : Word),
    (a.toNat < 192 → ∀ b : Word, dmemRead (dmemWrite s a v) b = if b = a then v else dmemRead s b) ∧
    (192 ≤ a.toNat → dmemWrite s a v = s ∧ dmemRead (dmemWrite s a v) a = 0) ∧
    { dmemWrite s a v with dmem := s.dmem } = s

/-- The load of a word sequence (R71): word `a` of the sequence at address `a`, zero beyond its end, words beyond the
capacity ignored. -/
def Obligations.WordImageFillsInstructionStore : Prop :=
  ∀ (params : Config.Params) (ws : List Word) (a : Word),
    imemRead (construct params (.words ws)) a = if a.toNat < 192 then ws.getD a.toNat 0 else 0

/-- The load of a byte image (R72; the byte order is decision D2's parameter): two bytes a word in the order of the
parameter, the last byte of an odd-length image ignored. -/
def Obligations.ByteImageFillsInstructionStore : Prop :=
  ∀ (params : Config.Params) (bs : List Byte) (a : Word),
    (imemRead (construct params (.bytes bs)) a).toNat =
      if a.toNat < 192 ∧ a.toNat < bs.length / 2 then
        match params.imageByteOrder with
        | .little => (bs.getD (2 * a.toNat) 0).toNat + 256 * (bs.getD (2 * a.toNat + 1) 0).toNat
        | .big => 256 * (bs.getD (2 * a.toNat) 0).toNat + (bs.getD (2 * a.toNat + 1) 0).toNat
      else 0

/-- Two stores in canonical form that read alike are equal data (entry 1). -/
def Obligations.CanonicalStoresReadingAlikeAreEqual : Prop :=
  ∀ (capacity : Nat) (m m' : Memory), Memory.wf capacity m = true → Memory.wf capacity m' = true →
    (∀ a, a < capacity → Memory.get m a = Memory.get m' a) → m = m'

/-! ### One statement for each instruction: its row of the encoding, its whole next state, its total cost -/

/-- ADD (R142; the wrap is D4, C written both ways D5). -/
def Obligations.AddWritesSumCarryAndZero : Prop :=
  (∀ w : Word, w &&& 0xF000 = 0x0000 → decode w = .add) ∧
  (∀ s : State, exec .add s = .next { s with
    x := s.x + s.y, c := decide (0xFFFF < s.x.toNat + s.y.toNat), z := decide (s.x + s.y = 0), cycles := s.cycles + 1 }) ∧
  (∀ s : State, s.status = .running → imemRead s s.pc &&& 0xF000 = 0x0000 →
    ∃ t, step s = .next t ∧ t.cycles = s.cycles + 2)

/-- SUB (R143; the wrap is D4, C written both ways D5, the borrow D6 and C5). -/
def Obligations.SubWritesDifferenceBorrowAndZero : Prop :=
  (∀ w : Word, w &&& 0xF000 = 0x1000 → decode w = .sub) ∧
  (∀ s : State, exec .sub s = .next { s with
    x := s.x - s.y, c := decide (s.x.toNat < s.y.toNat), z := decide (s.x = s.y), cycles := s.cycles + 1 }) ∧
  (∀ s : State, s.status = .running → imemRead s s.pc &&& 0xF000 = 0x1000 →
    ∃ t, step s = .next t ∧ t.cycles = s.cycles + 2)

/-- AND (R144). -/
def Obligations.AndWritesConjunctionAndZero : Prop :=
  (∀ w : Word, w &&& 0xF000 = 0x2000 → decode w = .and) ∧
  (∀ s : State, exec .and s = .next { s with
    x := s.x &&& s.y, z := decide (s.x &&& s.y = 0), cycles := s.cycles + 1 }) ∧
  (∀ s : State, s.status = .running → imemRead s s.pc &&& 0xF000 = 0x2000 →
    ∃ t, step s = .next t ∧ t.cycles = s.cycles + 2)

/-- OR (R145): Z is true only when X and Y are both 0. -/
def Obligations.OrWritesDisjunctionAndZero : Prop :=
  (∀ w : Word, w &&& 0xF000 = 0x3000 → decode w = .or) ∧
  (∀ s : State, exec .or s = .next { s with
    x := s.x ||| s.y, z := decide (s.x = 0 ∧ s.y = 0), cycles := s.cycles + 1 }) ∧
  (∀ s : State, s.status = .running → imemRead s s.pc &&& 0xF000 = 0x3000 →
    ∃ t, step s = .next t ∧ t.cycles = s.cycles + 2)

/-- XOR (R146): Z is an equality test. -/
def Obligations.XorWritesDifferenceBitsAndZero : Prop :=
  (∀ w : Word, w &&& 0xF000 = 0x4000 → decode w = .xor) ∧
  (∀ s : State, exec .xor s = .next { s with
    x := s.x ^^^ s.y, z := decide (s.x = s.y), cycles := s.cycles + 1 }) ∧
  (∀ s : State, s.status = .running → imemRead s s.pc &&& 0xF000 = 0x4000 →
    ∃ t, step s = .next t ∧ t.cycles = s.cycles + 2)

/-- NOT (R147): Z is true exactly when X was 0xFFFF; Y is not read. -/
def Obligations.NotWritesComplementAndZero : Prop :=
  (∀ w : Word, w &&& 0xF000 = 0x5000 → decode w = .not) ∧
  (∀ s : State, exec .not s = .next { s with
    x := ~~~s.x, z := decide (s.x = 0xFFFF), cycles := s.cycles + 1 }) ∧
  (∀ s : State, s.status = .running → imemRead s s.pc &&& 0xF000 = 0x5000 →
    ∃ t, step s = .next t ∧ t.cycles = s.cycles + 2)

/-- LDX_I (R150). -/
def Obligations.LoadXImmediateWritesOperand : Prop :=
  (∀ w : Word, w &&& 0xF000 = 0x6000 → decode w = .ldxI (w.extractLsb' 0 12)) ∧
  (∀ (imm : Operand) (s : State), exec (.ldxI imm) s = .next { s with x := BitVec.ofNat 16 imm.toNat }) ∧
  (∀ s : State, s.status = .running → imemRead s s.pc &&& 0xF000 = 0x6000 →
    ∃ t, step s = .next t ∧ t.cycles = s.cycles + 1)

/-- LDY_I (R151). -/
def Obligations.LoadYImmediateWritesOperand : Prop :=
  (∀ w : Word, w &&& 0xF000 = 0x7000 → decode w = .ldyI (w.extractLsb' 0 12)) ∧
  (∀ (imm : Operand) (s : State), exec (.ldyI imm) s = .next { s with y := BitVec.ofNat 16 imm.toNat }) ∧
  (∀ s : State, s.status = .running → imemRead s s.pc &&& 0xF000 = 0x7000 →
    ∃ t, step s = .next t ∧ t.cycles = s.cycles + 1)

/-- STX (R160): P is the operand, the cell at it takes X where it is in range, every other cell and all other state is
unchanged. -/
def Obligations.StoreXWritesPointerAndCell : Prop :=
  (∀ w : Word, w &&& 0xF000 = 0x8000 → decode w = .stx (w.extractLsb' 0 12)) ∧
  (∀ (imm : Operand) (s : State), ∃ t, exec (.stx imm) s = .next t ∧
    t.p = dataAddress imm ∧ (dataAddress imm).toNat = imm.toNat ∧
    (∀ a : Nat, Memory.get t.dmem a =
      if a = (dataAddress imm).toNat ∧ a < 192 then s.x else Memory.get s.dmem a) ∧
    (192 ≤ imm.toNat → t.dmem = s.dmem ∧ dmemRead t (dataAddress imm) = 0) ∧
    { t with p := s.p, dmem := s.dmem, cycles := s.cycles } = s ∧ t.cycles = s.cycles + 4) ∧
  (∀ s : State, s.status = .running → imemRead s s.pc &&& 0xF000 = 0x8000 →
    ∃ t, step s = .next t ∧ t.cycles = s.cycles + 5)

/-- STY (R161): as STX with Y as the value. -/
def Obligations.StoreYWritesPointerAndCell : Prop :=
  (∀ w : Word, w &&& 0xF000 = 0x9000 → decode w = .sty (w.extractLsb' 0 12)) ∧
  (∀ (imm : Operand) (s : State), ∃ t, exec (.sty imm) s = .next t ∧
    t.p = dataAddress imm ∧ (dataAddress imm).toNat = imm.toNat ∧
    (∀ a : Nat, Memory.get t.dmem a =
      if a = (dataAddress imm).toNat ∧ a < 192 then s.y else Memory.get s.dmem a) ∧
    (192 ≤ imm.toNat → t.dmem = s.dmem ∧ dmemRead t (dataAddress imm) = 0) ∧
    { t with p := s.p, dmem := s.dmem, cycles := s.cycles } = s ∧ t.cycles = s.cycles + 4) ∧
  (∀ s : State, s.status = .running → imemRead s s.pc &&& 0xF000 = 0x9000 →
    ∃ t, step s = .next t ∧ t.cycles = s.cycles + 5)

/-- JMP (R170): whatever the flags. -/
def Obligations.JumpSetsProgramCounter : Prop :=
  (∀ w : Word, w &&& 0xF000 = 0xA000 → decode w = .jmp (w.extractLsb' 0 12)) ∧
  (∀ (imm : Operand) (s : State), exec (.jmp imm) s = .next { s with
    pc := BitVec.ofNat 16 imm.toNat, cycles := s.cycles + 1 }) ∧
  (∀ s : State, s.status = .running → imemRead s s.pc &&& 0xF000 = 0xA000 →
    ∃ t, step s = .next t ∧ t.pc.toNat = (imemRead s s.pc).toNat % 4096 ∧ t.cycles = s.cycles + 2)

/-- JIC (R171): taken exactly when C is true; not taken, PC keeps the address after the JIC; C is not cleared. -/
def Obligations.JumpIfCarryTestsCarry : Prop :=
  (∀ w : Word, w &&& 0xF000 = 0xB000 → decode w = .jic (w.extractLsb' 0 12)) ∧
  (∀ (imm : Operand) (s : State), exec (.jic imm) s = .next { s with
    pc := if s.c = true then BitVec.ofNat 16 imm.toNat else s.pc, cycles := s.cycles + 1 }) ∧
  (∀ s : State, s.status = .running → imemRead s s.pc &&& 0xF000 = 0xB000 →
    ∃ t, step s = .next t ∧ t.cycles = s.cycles + 2 ∧
      t.pc.toNat = if s.c = true then (imemRead s s.pc).toNat % 4096 else (s.pc.toNat + 1) % 65536)

/-- JIZ (R172): as JIC, on Z. -/
def Obligations.JumpIfZeroTestsZero : Prop :=
  (∀ w : Word, w &&& 0xF000 = 0xC000 → decode w = .jiz (w.extractLsb' 0 12)) ∧
  (∀ (imm : Operand) (s : State), exec (.jiz imm) s = .next { s with
    pc := if s.z = true then BitVec.ofNat 16 imm.toNat else s.pc, cycles := s.cycles + 1 }) ∧
  (∀ s : State, s.status = .running → imemRead s s.pc &&& 0xF000 = 0xC000 →
    ∃ t, step s = .next t ∧ t.cycles = s.cycles + 2 ∧
      t.pc.toNat = if s.z = true then (imemRead s s.pc).toNat % 4096 else (s.pc.toNat + 1) % 65536)

/-- HLT (R180): nothing changes but the status; PC has advanced at the fetch; the run returns with no further fetch, its
count including HLT's own fetch. That its low bits are ignored is D10 (entry 11), the wrap of the advance D3 (entry 12), and
that a HLT whose own fetch reaches the budget still ends the run as Halted D7 (entry 16); the fuel is entry 7. -/
def Obligations.HaltEndsTheRun : Prop :=
  (∀ w : Word, w &&& 0xF000 = 0xD000 → decode w = .hlt) ∧
  (∀ s : State, exec .hlt s = .next { s with status := .halted }) ∧
  (∀ s : State, s.status = .running → imemRead s s.pc &&& 0xF000 = 0xD000 →
    step s = .next { s with pc := s.pc + 1, status := .halted, cycles := s.cycles + 1 }) ∧
  (∀ (max fuel : Nat) (s : State), s.status = .running → imemRead s s.pc &&& 0xF000 = 0xD000 →
    (0 < max → s.cycles < max) →
    runLoop max (fuel + 1) s = some {
      state := { s with pc := s.pc + 1, status := .halted, cycles := s.cycles + 1 },
      cycles := s.cycles + 1, outcome := .halted })

/-- LDX_A (R190): P is the operand, X the whole word of the cell at it, 0x0000 out of range; no flag is written. -/
def Obligations.LoadXMemoryReadsCell : Prop :=
  (∀ w : Word, w &&& 0xF000 = 0xE000 → decode w = .ldxA (w.extractLsb' 0 12)) ∧
  (∀ (imm : Operand) (s : State), exec (.ldxA imm) s = .next { s with
    p := BitVec.ofNat 16 imm.toNat, x := if imm.toNat < 192 then Memory.get s.dmem imm.toNat else 0,
    cycles := s.cycles + 4 }) ∧
  (∀ s : State, s.status = .running → imemRead s s.pc &&& 0xF000 = 0xE000 →
    ∃ t, step s = .next t ∧ t.cycles = s.cycles + 5)

/-- LDY_A (R191): as LDX_A with Y as the destination; and it is the only way to give Y a value above 0x0FFF: every other
instruction leaves Y at most 0x0FFF where it was. -/
def Obligations.LoadYMemoryReadsCell : Prop :=
  (∀ w : Word, w &&& 0xF000 = 0xF000 → decode w = .ldyA (w.extractLsb' 0 12)) ∧
  (∀ (imm : Operand) (s : State), exec (.ldyA imm) s = .next { s with
    p := BitVec.ofNat 16 imm.toNat, y := if imm.toNat < 192 then Memory.get s.dmem imm.toNat else 0,
    cycles := s.cycles + 4 }) ∧
  (∀ s : State, s.status = .running → imemRead s s.pc &&& 0xF000 = 0xF000 →
    ∃ t, step s = .next t ∧ t.cycles = s.cycles + 5) ∧
  (∀ (i : Instr) (s : State), i.mnemonic ≠ .LDY_A → s.y.toNat ≤ 0x0FFF →
    ∃ t, exec i s = .next t ∧ t.y.toNat ≤ 0x0FFF)

/-! ### One step -/

/-- R111 (the wrap of the advance is D3, and that nothing happens outside a run entry 3): a step of a run is the meaning of
the word at PC on the state whose PC has advanced by one and whose counter has been charged the fetch. -/
def Obligations.StepRunsTheDecodedInstruction : Prop :=
  (∀ s : State, s.status = .running →
    step s = exec (decode (if s.pc.toNat < 192 then Memory.get s.imem s.pc.toNat else 0))
      { s with pc := s.pc + 1, cycles := s.cycles + 1 }) ∧
  ∀ s : State, s.status ≠ .running → step s = .next s

/-- The word that `withFetchWord` places is the instruction the very next step runs (entry 5), and the decoder on the table's
numbering answers the same instruction. -/
def Obligations.PlacedWordRunsNext : Prop :=
  ∀ (s : State) (w : Nat), w < 65536 → ∃ i, decodeTableWord 16 w = some i ∧
    step (s.withFetchWord 16 w) = exec i (advance (s.withFetchWord 16 w)) ∧
    (s.withFetchWord 16 w).pc = (if s.pc.toNat < 192 then s.pc else 0) ∧
    { s.withFetchWord 16 w with pc := s.pc, imem := s.imem, status := s.status } = s

/-- R112: the total cost of each row of the opcode table, charged whatever the operands and flags. -/
def Obligations.EachStepChargesTheTablesCost : Prop :=
  ∀ s : State, s.status = .running → ∃ t, step s = .next t ∧
    t.cycles = s.cycles +
      [2, 2, 2, 2, 2, 2, 1, 1, 5, 5, 2, 2, 2, 1, 5, 5].getD ((imemRead s s.pc).toNat / 4096) 0

/-- R120: no step fails or aborts, whatever the state, however many there are. -/
def Obligations.NoStepEverStops : Prop :=
  (∀ (i : Instr) (s : State), ∃ t, exec i s = .next t) ∧ ∀ s : State, s.NeverStops

/-- A fetch at address 192 or above executes ADD and PC keeps advancing, whatever the stores hold: the whole next state (R76,
R119). The wrap of the advance is D3 (entry 12), that of the sum D4 (entry 13), C written both ways D5 (entry 14), and the
comparison of the whole address D19 (entry 23). -/
def Obligations.FetchBeyondTheStoreAdds : Prop :=
  ∀ s : State, s.status = .running → 192 ≤ s.pc.toNat → step s = .next { s with
    pc := s.pc + 1, x := s.x + s.y, c := decide (0xFFFF < s.x.toNat + s.y.toNat), z := decide (s.x + s.y = 0),
    cycles := s.cycles + 2 }

/-! ### Rules of the whole instruction set -/

/-- C is written by ADD and SUB and by no other instruction, and read by JIC alone: any other instruction leaves the same
state, C aside, whatever C was (R38, D5, D6; R148: C is never an input to the ALU). -/
def Obligations.OnlyAddAndSubWriteCarry : Prop :=
  ∀ (i : Instr) (s : State), ∃ t, exec i s = .next t ∧
    (t.c = if i = .add then decide (0xFFFF < s.x.toNat + s.y.toNat)
      else if i = .sub then decide (s.x.toNat < s.y.toNat) else s.c) ∧
    (i.mnemonic ≠ .JIC → ∀ b : Bool, ∃ u, exec i (s.setC b) = .next u ∧ u.setC t.c = t)

/-- Z is written by the six ALU instructions, from the X they leave, and by no other, and read by JIZ alone: any other
instruction leaves the same state, Z aside, whatever Z was (R39, R140). -/
def Obligations.OnlyAluWritesZeroFromNewX : Prop :=
  ∀ (i : Instr) (s : State), ∃ t, exec i s = .next t ∧
    (t.z = if i ∈ [Instr.add, Instr.sub, Instr.and, Instr.or, Instr.xor, Instr.not] then decide (t.x = 0) else s.z) ∧
    (i.mnemonic ≠ .JIZ → ∀ b : Bool, ∃ u, exec i (s.setZ b) = .next u ∧ u.setZ t.z = t)

/-- Which instructions write X and which write Y (R31, R32), and that NOT and every instruction that names no Y leaves the
same state, Y aside, whatever Y was (R32). -/
def Obligations.GeneralRegistersWrittenOnlyByTheirInstructions : Prop :=
  ∀ (i : Instr) (s : State), ∃ t, exec i s = .next t ∧
    (i.mnemonic ∉ [Mnemonic.ADD, .SUB, .AND, .OR, .XOR, .NOT, .LDX_I, .LDX_A] → t.x = s.x) ∧
    (i.mnemonic ∉ [Mnemonic.LDY_I, .LDY_A] → t.y = s.y) ∧
    (i.mnemonic ∉ [Mnemonic.ADD, .SUB, .AND, .OR, .XOR, .STY] →
      ∀ v : Word, ∃ u, exec i (s.setY v) = .next u ∧ u.setY t.y = t)

/-- P is written by the four memory instructions only, with their operand (R34, R192). -/
def Obligations.PointerIsTheLastDataAddress : Prop :=
  ∀ (i : Instr) (s : State), ∃ t, exec i s = .next t ∧
    (i.mnemonic ∈ [Mnemonic.STX, .STY, .LDX_A, .LDY_A] →
      ∃ a : Operand, i.operand = some a ∧ t.p.toNat = a.toNat) ∧
    (i.mnemonic ∉ [Mnemonic.STX, .STY, .LDX_A, .LDY_A] → t.p = s.p)

/-- PC is written by JMP, and by JIC and JIZ when taken; every other instruction leaves the value the fetch advanced (R37;
the wrap of the advance is D3). -/
def Obligations.OnlyJumpsOverrideTheAdvance : Prop :=
  ∀ s : State, s.status = .running → ∃ t, step s = .next t ∧
    t.pc.toNat = match decode (imemRead s s.pc) with
      | .jmp a => a.toNat
      | .jic a => if s.c = true then a.toNat else (s.pc.toNat + 1) % 65536
      | .jiz a => if s.z = true then a.toNat else (s.pc.toNat + 1) % 65536
      | _ => (s.pc.toNat + 1) % 65536

/-- The only transition into Halted is executing HLT; every other instruction keeps the status (R40, D9). -/
def Obligations.OnlyHaltChangesTheStatus : Prop :=
  ∀ (i : Instr) (s : State), ∃ t, exec i s = .next t ∧ t.status = if i = .hlt then .halted else s.status

/-- IMEM changes only through the load at construction and the test-only write: no step, no run and no other command
changes it (R73). -/
def Obligations.InstructionStoreIsReadOnly : Prop :=
  (∀ (i : Instr) (s : State), ∃ t, exec i s = .next t ∧ t.imem = s.imem) ∧
  ∀ (params : Config.Params) (fuel : Nat) (command : Command) (s t : State) (reply : Reply),
    hostCommand params fuel command s = .done t reply →
      t.imem = s.imem ∨ (∃ image, command = .construct image ∧ t.imem = imageMemory params image) ∨
      ∃ a v, command = .imemWrite a v ∧ params.testBuild = true ∧ t = imemWrite s a v

/-- DMEM is zero at construction and changed only by STX and STY; the reset command does not clear it, and the host can
read it but never write it (R75). -/
def Obligations.OnlyStoresChangeTheDataStore : Prop :=
  (∀ (i : Instr) (s : State), ∃ t, exec i s = .next t ∧
    (i.mnemonic ∉ [Mnemonic.STX, .STY] → t.dmem = s.dmem)) ∧
  (∀ (params : Config.Params) (image : Image) (a : Word), dmemRead (construct params image) a = 0) ∧
  (∀ s : State, (resetCommand s).dmem = s.dmem) ∧
  (∀ (s : State) (a : Word), a.toNat < 192 → readCommand s (.dmem a) = .word (dmemRead s a)) ∧
  ∀ (params : Config.Params) (fuel : Nat) (command : Command) (s t : State) (reply : Reply),
    hostCommand params fuel command s = .done t reply →
    (∀ image, command ≠ .construct image) → (∀ budget, command ≠ .run budget) → t.dmem = s.dmem

/-- A word stored is what the next load of the same address gives, in either register, and 0x0000 where the address is out of
range (R66, R77, R236). -/
def Obligations.LoadAfterStoreGivesTheStoredWord : Prop :=
  ∀ (imm : Operand) (s : State), ∃ u v,
    exec (.stx imm) s = .next u ∧ exec (.sty imm) s = .next v ∧
    (∃ t, exec (.ldxA imm) u = .next t ∧ t.x = if imm.toNat < 192 then s.x else 0) ∧
    (∃ t, exec (.ldyA imm) u = .next t ∧ t.y = if imm.toNat < 192 then s.x else 0) ∧
    (∃ t, exec (.ldxA imm) v = .next t ∧ t.x = if imm.toNat < 192 then s.y else 0) ∧
    (∃ t, exec (.ldyA imm) v = .next t ∧ t.y = if imm.toNat < 192 then s.y else 0) ∧
    ∀ other : Operand, other ≠ imm → ∃ t r, exec (.ldxA other) u = .next t ∧ exec (.ldxA other) s = .next r ∧ t.x = r.x

/-- No program can depend on the value P held before: runs of any length from two states that differ in P alone end in states
that differ in P alone (R34, R234). -/
def Obligations.EarlierPointerNeverMatters : Prop :=
  ∀ (k : Nat) (s t : State), s.EqualButP t →
    ∃ s' t', Sys2Proof.core.run k s = .next s' ∧ Sys2Proof.core.run k t = .next t' ∧ s'.EqualButP t'

/-! ### Construction, reset, invariant -/

/-- Every piece of state at construction and after the reset command, and that the host's two commands complete with exactly
these states (R43, R235). That reset leaves P is C2 (entry 21), the status it gives entry 4; the last clause, that `State.reset`
is construction with an empty image, is the model's own (entry 5, and entry 2 for the counter in it). -/
def Obligations.ConstructionAndResetValues : Prop :=
  (∀ (params : Config.Params) (image : Image),
    (construct params image).pc = 0 ∧ (construct params image).x = 0 ∧ (construct params image).y = 0 ∧
    (construct params image).p = 0 ∧ (construct params image).c = false ∧ (construct params image).z = false ∧
    (construct params image).status = .notRunning ∧ (∀ a, dmemRead (construct params image) a = 0) ∧
    (construct params image).imem = imageMemory params image) ∧
  (∀ s : State,
    (resetCommand s).pc = 0 ∧ (resetCommand s).x = 0 ∧ (resetCommand s).y = 0 ∧
    (resetCommand s).c = false ∧ (resetCommand s).z = false ∧ (resetCommand s).status = .notRunning ∧
    (resetCommand s).p = s.p ∧ (resetCommand s).imem = s.imem ∧ (resetCommand s).dmem = s.dmem) ∧
  (∀ (params : Config.Params) (fuel : Nat) (s : State),
    (∀ image, hostCommand params fuel (.construct image) s = .done (construct params image) .nothing) ∧
    hostCommand params fuel .reset s = .done (resetCommand s) .nothing) ∧
  ∀ params : Config.Params, construct params (.words []) = State.reset

/-- The invariant holds at reset. -/
def Obligations.ResetMeetsTheInvariant : Prop := State.reset.Inv

/-- Every step keeps the invariant: both stores stay in canonical form with no cell outside 0..191, and P stays in 0..0xFFF
(R34, R42). -/
def Obligations.StepKeepsTheInvariant : Prop :=
  ∀ s t : State, s.Inv → step s = .next t → t.Inv

/-- Every host command keeps the invariant, runs of any length included. -/
def Obligations.HostCommandsKeepTheInvariant : Prop :=
  ∀ (params : Config.Params) (fuel : Nat) (command : Command) (s t : State) (reply : Reply),
    s.Inv → hostCommand params fuel command s = .done t reply → t.Inv

/-! ### The run command -/

/-- R114 (the place of the budget test is D7, entry 16; HALT_STICKY is D9, entry 18; the fuel is entry 7): a run returns exactly when some number of steps from the
current PC, none of the states before the last being Halted or having spent the budget, leads to a Halted state or to one
that has spent it; it returns that state, its count and which of the two it is. The host's run command answers what the run returns, and that the
run is still going where the fuel does not suffice; an absent budget is a budget of 0. -/
def Obligations.RunIsIteratedSteps : Prop :=
  (∀ (params : Config.Params) (max : Nat) (s : State) (r : RunReturn),
    ¬ (params.haltSticky = true ∧ s.status = .halted) →
    ((∃ fuel, runCommand params fuel max s = some r) ↔
      ∃ k t, State.Runs max { s with status := .running, cycles := 0 } k t ∧
        r.state = { t with cycles := 0 } ∧ r.cycles = t.cycles ∧
        ((r.outcome = .halted ∧ t.status = .halted) ∨
          (r.outcome = .budgetExhausted ∧ t.status = .running ∧ 0 < max ∧ max ≤ t.cycles)))) ∧
  ∀ (params : Config.Params) (fuel max : Nat) (s : State),
    (∀ r, runCommand params fuel max s = some r →
      hostCommand params fuel (.run (some max)) s = .done r.state (.ran r.cycles r.outcome)) ∧
    (runCommand params fuel max s = none → hostCommand params fuel (.run (some max)) s = .stillRunning) ∧
    hostCommand params fuel (.run none) s = hostCommand params fuel (.run (some 0)) s

/-- A run that its budget ends returns a count in max .. max + 4, the status still Running (R115, R117, D7). -/
def Obligations.BudgetOvershootsByAtMostFour : Prop :=
  ∀ (params : Config.Params) (fuel max : Nat) (s : State) (r : RunReturn),
    runCommand params fuel max s = some r → r.outcome = .budgetExhausted →
      0 < max ∧ max ≤ r.cycles ∧ r.cycles ≤ max + 4 ∧ r.state.status = .running

/-- The count of a sequence of steps of a run is the sum of the costs of the words it fetched (R118, R112, D8). -/
def Obligations.CountIsTheSumOfCosts : Prop :=
  ∀ (max k : Nat) (s t : State), s.Runs max k t → ∃ words : List Word, words.length = k ∧
    (∀ j < k, ∃ u, Sys2Proof.core.run j s = .next u ∧ words[j]? = some (imemRead u u.pc)) ∧
    t.cycles = s.cycles +
      (words.map fun w => [2, 2, 2, 2, 2, 2, 1, 1, 5, 5, 2, 2, 2, 1, 5, 5].getD (w.toNat / 4096) 0).sum

/-- A run with budget 1 executes exactly one instruction and returns its total cost (R122, D7; HALT_STICKY at its
default). -/
def Obligations.BudgetOneRunsOneInstruction : Prop :=
  ∀ (s : State) (fuel : Nat), ∃ t, step { s with status := .running, cycles := 0 } = .next t ∧
    runCommand defaultParams (fuel + 2) 1 s = some {
      state := { t with cycles := 0 }, cycles := t.cycles,
      outcome := if t.status = .halted then .halted else .budgetExhausted }

/-- R116 (D9): by default a run after HLT resumes at the current PC, whatever the status was; with HALT_STICKY a run on a
Halted core returns (0, Halted) at once, and a reset in between lets it run again. -/
def Obligations.RunAfterHaltFollowsHaltSticky : Prop :=
  (∀ (params : Config.Params) (fuel max : Nat) (s : State) (status : Status), params.haltSticky = false →
    runCommand params fuel max (s.setStatus status) = runCommand params fuel max s) ∧
  (∀ (params : Config.Params) (fuel max : Nat) (s : State), params.haltSticky = true → s.status = .halted →
    runCommand params fuel max s = some { state := s, cycles := 0, outcome := .halted }) ∧
  ∀ (params : Config.Params) (fuel max : Nat) (s : State),
    runCommand params fuel max (resetCommand s) = runCommand defaultParams fuel max (resetCommand s)

/-- R117: a budgeted run can be resumed. If an unbounded run from `s` returns, then a run from `s` with a positive budget
returns too, and either it is that same run, or its budget ended it, and an unbounded run from the state it left ends where
the one unbounded run ends, the two counts adding up to its count. That the budget never cuts an instruction is D7 (entry 16),
a counter for each run D8 (entry 17), HALT_STICKY at its default D9 (entry 18); the fuel is entry 7. -/
def Obligations.BudgetedRunResumesToTheSameEnd : Prop :=
  ∀ (fuel max : Nat) (s : State) (r : RunReturn), 0 < max → runCommand defaultParams fuel 0 s = some r →
    ∃ fuel₁ r₁, runCommand defaultParams fuel₁ max s = some r₁ ∧
      (r₁ = r ∨ (r₁.outcome = .budgetExhausted ∧
        ∃ fuel₂ r₂, runCommand defaultParams fuel₂ 0 r₁.state = some r₂ ∧
          r₂.state = r.state ∧ r₂.outcome = r.outcome ∧ r₁.cycles + r₂.cycles = r.cycles))

/-- An unbounded run returns exactly when it executes a HLT; else it never returns, and that is no fault (R119, D16). The
fuel is entry 7; that with HALT_STICKY false a run from a Halted core runs as any other is D9 (entry 18). -/
def Obligations.UnboundedRunReturnsOnlyByHalt : Prop :=
  ∀ (params : Config.Params) (s : State), ¬ (params.haltSticky = true ∧ s.status = .halted) →
    ((∀ fuel, runCommand params fuel 0 s = none) ↔
      ∀ k, ∃ t, Sys2Proof.core.run k { s with status := .running, cycles := 0 } = .next t ∧ t.status = .running)

/-- What a run returns does not depend on the fuel, once there is enough (entry 7). -/
def Obligations.MoreFuelGivesTheSameRun : Prop :=
  ∀ (params : Config.Params) (fuel more max : Nat) (s : State) (r : RunReturn),
    runCommand params fuel max s = some r → runCommand params (fuel + more) max s = some r

/-- After HLT the core does nothing, for any number of steps, until the host's next command (R180, R212; entry 3). -/
def Obligations.HaltedCoreStaysAsItIs : Prop :=
  ∀ (k : Nat) (s : State), s.status = .halted → Sys2Proof.core.run k s = .next s

/-! ### The host's other commands -/

/-- The test-only write of IMEM (R74, D14): not offered by a production build; in a test build it writes the cell where the
address is in range, and nothing else. -/
def Obligations.ImemWriteIsForTestBuilds : Prop :=
  ∀ (params : Config.Params) (fuel : Nat) (s : State) (a v : Word),
    (params.testBuild = false → hostCommand params fuel (.imemWrite a v) s = .notOffered) ∧
    (params.testBuild = true → ∃ t, hostCommand params fuel (.imemWrite a v) s = .done t .nothing ∧
      (∀ b : Word, imemRead t b = if b = a ∧ a.toNat < 192 then v else imemRead s b) ∧ { t with imem := s.imem } = s)

/-- The read command gives the registers, the flags and the words of the data store, and changes nothing (R41, R235, D12);
that a word out of range reads 0x0000 is the model's inference (entry 8). -/
def Obligations.HostReadsWithoutChange : Prop :=
  ∀ (params : Config.Params) (fuel : Nat) (s : State),
    hostCommand params fuel (.read .pc) s = .done s (.value (.word s.pc)) ∧
    hostCommand params fuel (.read .x) s = .done s (.value (.word s.x)) ∧
    hostCommand params fuel (.read .y) s = .done s (.value (.word s.y)) ∧
    hostCommand params fuel (.read .p) s = .done s (.value (.word s.p)) ∧
    hostCommand params fuel (.read .c) s = .done s (.value (.flag s.c)) ∧
    hostCommand params fuel (.read .z) s = .done s (.value (.flag s.z)) ∧
    ∀ a : Word,
      (a.toNat < 192 →
        hostCommand params fuel (.read (.dmem a)) s = .done s (.value (.word (Memory.get s.dmem a.toNat)))) ∧
      (192 ≤ a.toNat → hostCommand params fuel (.read (.dmem a)) s = .done s (.value (.word 0)))
end

