-- ==== Sys2Proof/Laws/State.lean ====
section
/-! SUPPORT. What each field holds after each update of one field. -/

namespace Sys2Proof.Machine

variable (s : State)

@[simp] theorem State.setPc_pc (v : Word) : (s.setPc v).pc = v := rfl
@[simp] theorem State.setPc_x (v : Word) : (s.setPc v).x = s.x := rfl
@[simp] theorem State.setPc_y (v : Word) : (s.setPc v).y = s.y := rfl
@[simp] theorem State.setPc_p (v : Word) : (s.setPc v).p = s.p := rfl
@[simp] theorem State.setPc_c (v : Word) : (s.setPc v).c = s.c := rfl
@[simp] theorem State.setPc_z (v : Word) : (s.setPc v).z = s.z := rfl
@[simp] theorem State.setPc_imem (v : Word) : (s.setPc v).imem = s.imem := rfl
@[simp] theorem State.setPc_dmem (v : Word) : (s.setPc v).dmem = s.dmem := rfl
@[simp] theorem State.setPc_status (v : Word) : (s.setPc v).status = s.status := rfl
@[simp] theorem State.setPc_cycles (v : Word) : (s.setPc v).cycles = s.cycles := rfl

@[simp] theorem State.setX_pc (v : Word) : (s.setX v).pc = s.pc := rfl
@[simp] theorem State.setX_x (v : Word) : (s.setX v).x = v := rfl
@[simp] theorem State.setX_y (v : Word) : (s.setX v).y = s.y := rfl
@[simp] theorem State.setX_p (v : Word) : (s.setX v).p = s.p := rfl
@[simp] theorem State.setX_c (v : Word) : (s.setX v).c = s.c := rfl
@[simp] theorem State.setX_z (v : Word) : (s.setX v).z = s.z := rfl
@[simp] theorem State.setX_imem (v : Word) : (s.setX v).imem = s.imem := rfl
@[simp] theorem State.setX_dmem (v : Word) : (s.setX v).dmem = s.dmem := rfl
@[simp] theorem State.setX_status (v : Word) : (s.setX v).status = s.status := rfl
@[simp] theorem State.setX_cycles (v : Word) : (s.setX v).cycles = s.cycles := rfl

@[simp] theorem State.setY_pc (v : Word) : (s.setY v).pc = s.pc := rfl
@[simp] theorem State.setY_x (v : Word) : (s.setY v).x = s.x := rfl
@[simp] theorem State.setY_y (v : Word) : (s.setY v).y = v := rfl
@[simp] theorem State.setY_p (v : Word) : (s.setY v).p = s.p := rfl
@[simp] theorem State.setY_c (v : Word) : (s.setY v).c = s.c := rfl
@[simp] theorem State.setY_z (v : Word) : (s.setY v).z = s.z := rfl
@[simp] theorem State.setY_imem (v : Word) : (s.setY v).imem = s.imem := rfl
@[simp] theorem State.setY_dmem (v : Word) : (s.setY v).dmem = s.dmem := rfl
@[simp] theorem State.setY_status (v : Word) : (s.setY v).status = s.status := rfl
@[simp] theorem State.setY_cycles (v : Word) : (s.setY v).cycles = s.cycles := rfl

@[simp] theorem State.setP_pc (v : Word) : (s.setP v).pc = s.pc := rfl
@[simp] theorem State.setP_x (v : Word) : (s.setP v).x = s.x := rfl
@[simp] theorem State.setP_y (v : Word) : (s.setP v).y = s.y := rfl
@[simp] theorem State.setP_p (v : Word) : (s.setP v).p = v := rfl
@[simp] theorem State.setP_c (v : Word) : (s.setP v).c = s.c := rfl
@[simp] theorem State.setP_z (v : Word) : (s.setP v).z = s.z := rfl
@[simp] theorem State.setP_imem (v : Word) : (s.setP v).imem = s.imem := rfl
@[simp] theorem State.setP_dmem (v : Word) : (s.setP v).dmem = s.dmem := rfl
@[simp] theorem State.setP_status (v : Word) : (s.setP v).status = s.status := rfl
@[simp] theorem State.setP_cycles (v : Word) : (s.setP v).cycles = s.cycles := rfl

@[simp] theorem State.setC_pc (v : Bool) : (s.setC v).pc = s.pc := rfl
@[simp] theorem State.setC_x (v : Bool) : (s.setC v).x = s.x := rfl
@[simp] theorem State.setC_y (v : Bool) : (s.setC v).y = s.y := rfl
@[simp] theorem State.setC_p (v : Bool) : (s.setC v).p = s.p := rfl
@[simp] theorem State.setC_c (v : Bool) : (s.setC v).c = v := rfl
@[simp] theorem State.setC_z (v : Bool) : (s.setC v).z = s.z := rfl
@[simp] theorem State.setC_imem (v : Bool) : (s.setC v).imem = s.imem := rfl
@[simp] theorem State.setC_dmem (v : Bool) : (s.setC v).dmem = s.dmem := rfl
@[simp] theorem State.setC_status (v : Bool) : (s.setC v).status = s.status := rfl
@[simp] theorem State.setC_cycles (v : Bool) : (s.setC v).cycles = s.cycles := rfl

@[simp] theorem State.setZ_pc (v : Bool) : (s.setZ v).pc = s.pc := rfl
@[simp] theorem State.setZ_x (v : Bool) : (s.setZ v).x = s.x := rfl
@[simp] theorem State.setZ_y (v : Bool) : (s.setZ v).y = s.y := rfl
@[simp] theorem State.setZ_p (v : Bool) : (s.setZ v).p = s.p := rfl
@[simp] theorem State.setZ_c (v : Bool) : (s.setZ v).c = s.c := rfl
@[simp] theorem State.setZ_z (v : Bool) : (s.setZ v).z = v := rfl
@[simp] theorem State.setZ_imem (v : Bool) : (s.setZ v).imem = s.imem := rfl
@[simp] theorem State.setZ_dmem (v : Bool) : (s.setZ v).dmem = s.dmem := rfl
@[simp] theorem State.setZ_status (v : Bool) : (s.setZ v).status = s.status := rfl
@[simp] theorem State.setZ_cycles (v : Bool) : (s.setZ v).cycles = s.cycles := rfl

@[simp] theorem State.setImem_pc (v : Memory) : (s.setImem v).pc = s.pc := rfl
@[simp] theorem State.setImem_x (v : Memory) : (s.setImem v).x = s.x := rfl
@[simp] theorem State.setImem_y (v : Memory) : (s.setImem v).y = s.y := rfl
@[simp] theorem State.setImem_p (v : Memory) : (s.setImem v).p = s.p := rfl
@[simp] theorem State.setImem_c (v : Memory) : (s.setImem v).c = s.c := rfl
@[simp] theorem State.setImem_z (v : Memory) : (s.setImem v).z = s.z := rfl
@[simp] theorem State.setImem_imem (v : Memory) : (s.setImem v).imem = v := rfl
@[simp] theorem State.setImem_dmem (v : Memory) : (s.setImem v).dmem = s.dmem := rfl
@[simp] theorem State.setImem_status (v : Memory) : (s.setImem v).status = s.status := rfl
@[simp] theorem State.setImem_cycles (v : Memory) : (s.setImem v).cycles = s.cycles := rfl

@[simp] theorem State.setDmem_pc (v : Memory) : (s.setDmem v).pc = s.pc := rfl
@[simp] theorem State.setDmem_x (v : Memory) : (s.setDmem v).x = s.x := rfl
@[simp] theorem State.setDmem_y (v : Memory) : (s.setDmem v).y = s.y := rfl
@[simp] theorem State.setDmem_p (v : Memory) : (s.setDmem v).p = s.p := rfl
@[simp] theorem State.setDmem_c (v : Memory) : (s.setDmem v).c = s.c := rfl
@[simp] theorem State.setDmem_z (v : Memory) : (s.setDmem v).z = s.z := rfl
@[simp] theorem State.setDmem_imem (v : Memory) : (s.setDmem v).imem = s.imem := rfl
@[simp] theorem State.setDmem_dmem (v : Memory) : (s.setDmem v).dmem = v := rfl
@[simp] theorem State.setDmem_status (v : Memory) : (s.setDmem v).status = s.status := rfl
@[simp] theorem State.setDmem_cycles (v : Memory) : (s.setDmem v).cycles = s.cycles := rfl

@[simp] theorem State.setStatus_pc (v : Status) : (s.setStatus v).pc = s.pc := rfl
@[simp] theorem State.setStatus_x (v : Status) : (s.setStatus v).x = s.x := rfl
@[simp] theorem State.setStatus_y (v : Status) : (s.setStatus v).y = s.y := rfl
@[simp] theorem State.setStatus_p (v : Status) : (s.setStatus v).p = s.p := rfl
@[simp] theorem State.setStatus_c (v : Status) : (s.setStatus v).c = s.c := rfl
@[simp] theorem State.setStatus_z (v : Status) : (s.setStatus v).z = s.z := rfl
@[simp] theorem State.setStatus_imem (v : Status) : (s.setStatus v).imem = s.imem := rfl
@[simp] theorem State.setStatus_dmem (v : Status) : (s.setStatus v).dmem = s.dmem := rfl
@[simp] theorem State.setStatus_status (v : Status) : (s.setStatus v).status = v := rfl
@[simp] theorem State.setStatus_cycles (v : Status) : (s.setStatus v).cycles = s.cycles := rfl

@[simp] theorem State.setCycles_pc (v : Nat) : (s.setCycles v).pc = s.pc := rfl
@[simp] theorem State.setCycles_x (v : Nat) : (s.setCycles v).x = s.x := rfl
@[simp] theorem State.setCycles_y (v : Nat) : (s.setCycles v).y = s.y := rfl
@[simp] theorem State.setCycles_p (v : Nat) : (s.setCycles v).p = s.p := rfl
@[simp] theorem State.setCycles_c (v : Nat) : (s.setCycles v).c = s.c := rfl
@[simp] theorem State.setCycles_z (v : Nat) : (s.setCycles v).z = s.z := rfl
@[simp] theorem State.setCycles_imem (v : Nat) : (s.setCycles v).imem = s.imem := rfl
@[simp] theorem State.setCycles_dmem (v : Nat) : (s.setCycles v).dmem = s.dmem := rfl
@[simp] theorem State.setCycles_status (v : Nat) : (s.setCycles v).status = s.status := rfl
@[simp] theorem State.setCycles_cycles (v : Nat) : (s.setCycles v).cycles = v := rfl

end Sys2Proof.Machine
end

