-- ==== Sys2Proof/Laws/Memory.lean ====
section
/-! SUPPORT. The laws of a store: what a read gives after a write, and that every operation keeps the canonical form. -/

namespace Sys2Proof.Machine

@[simp] theorem Memory.get_nil (a : Nat) : Memory.get [] a = 0 := rfl

theorem Memory.get_erase (m : Memory) (a b : Nat) :
    Memory.get (Memory.erase m a) b = if b = a then 0 else Memory.get m b := by
  induction m with
  | nil => simp [Memory.erase]
  | cons cell m ih =>
    obtain ⟨k, v⟩ := cell
    by_cases hk : k = a
    · have : Memory.erase ((k, v) :: m) a = Memory.erase m a := by simp [Memory.erase, hk]
      rw [this, ih]
      by_cases hb : b = a
      · simp [hb]
      · simp [Memory.get, hb, hk, Ne.symm hb]
    · have : Memory.erase ((k, v) :: m) a = (k, v) :: Memory.erase m a := by simp [Memory.erase, hk]
      rw [this]
      simp only [Memory.get, ih]
      by_cases hb : k = b
      · subst hb; simp [hk]
      · simp [hb]

theorem Memory.get_insert (m : Memory) (a b : Nat) (v : Word) (ha : Memory.get m a = 0) (hv : ∀ c ∈ m, c.1 ≠ a) :
    Memory.get (Memory.insert a v m) b = if b = a then v else Memory.get m b := by
  induction m with
  | nil => simp [Memory.insert, Memory.get, eq_comm]
  | cons cell m ih =>
    obtain ⟨k, w⟩ := cell
    have hk : k ≠ a := hv _ (List.mem_cons_self ..)
    have ha' : Memory.get m a = 0 := by simpa [Memory.get, hk] using ha
    have ih := ih ha' fun c hc => hv c (List.mem_cons_of_mem _ hc)
    by_cases hlt : a < k
    · simp [Memory.insert, hlt, Memory.get, eq_comm]
    · simp only [Memory.insert, hlt, if_false, Memory.get, ih]
      by_cases hb : k = b
      · subst hb; simp [hk]
      · simp [hb]

theorem Memory.mem_erase (m : Memory) (a : Nat) (c : Nat × Word) :
    c ∈ Memory.erase m a ↔ c ∈ m ∧ c.1 ≠ a := by
  simp [Memory.erase]

/-- A read after a write: the word written at that address, what was there before at every other one. -/
theorem Memory.get_set (m : Memory) (a b : Nat) (v : Word) :
    Memory.get (Memory.set m a v) b = if b = a then v else Memory.get m b := by
  by_cases hv : v = 0#16
  · subst hv; simp [Memory.set, Memory.get_erase]
  · have h0 : Memory.get (Memory.erase m a) a = 0 := by simp [Memory.get_erase]
    simp only [Memory.set, hv, if_false]
    rw [Memory.get_insert _ _ _ _ h0 fun c hc => ((Memory.mem_erase m a c).1 hc).2, Memory.get_erase]
    by_cases hb : b = a <;> simp [hb]

/-- The canonical form as a proposition. -/
theorem Memory.wf_iff (n : Nat) (m : Memory) :
    Memory.wf n m = true ↔ m.Pairwise (fun a b => a.1 < b.1) ∧ ∀ c ∈ m, c.1 < n ∧ c.2 ≠ 0 := by
  simp [Memory.wf]

theorem Memory.mem_insert (m : Memory) (a : Nat) (v : Word) (c : Nat × Word) :
    c ∈ Memory.insert a v m ↔ c = (a, v) ∨ c ∈ m := by
  induction m with
  | nil => simp [Memory.insert]
  | cons k m ih =>
    by_cases h : a < k.1
    · simp [Memory.insert, h]
    · simp only [Memory.insert, h, if_false, List.mem_cons, ih]
      tauto

theorem Memory.erase_wf (n : Nat) (m : Memory) (a : Nat) (h : Memory.wf n m = true) :
    Memory.wf n (Memory.erase m a) = true := by
  rw [Memory.wf_iff] at h ⊢
  exact ⟨h.1.filter _, fun c hc => h.2 c ((Memory.mem_erase m a c).1 hc).1⟩

theorem Memory.insert_wf (n : Nat) (m : Memory) (a : Nat) (v : Word) (ha : a < n) (hv : v ≠ 0#16)
    (hm : ∀ c ∈ m, c.1 ≠ a) (h : Memory.wf n m = true) : Memory.wf n (Memory.insert a v m) = true := by
  rw [Memory.wf_iff] at h ⊢
  refine ⟨?_, fun c hc => ?_⟩
  · obtain ⟨hp, -⟩ := h
    induction m with
    | nil => simp [Memory.insert]
    | cons k m ih =>
      rw [List.pairwise_cons] at hp
      by_cases hlt : a < k.1
      · simp only [Memory.insert, hlt, if_true, List.pairwise_cons, List.mem_cons, forall_eq_or_imp]
        exact ⟨⟨trivial, fun c hc => hlt.trans (hp.1 c hc)⟩, hp⟩
      · have hne : k.1 ≠ a := hm k (List.mem_cons_self ..)
        simp only [Memory.insert, hlt, if_false, List.pairwise_cons, Memory.mem_insert]
        refine ⟨?_, ih (fun c hc => hm c (List.mem_cons_of_mem _ hc)) hp.2⟩
        rintro c (rfl | hc)
        · simp only; omega
        · exact hp.1 c hc
  · rcases (Memory.mem_insert m a v c).1 hc with rfl | hc
    · exact ⟨ha, hv⟩
    · exact h.2 c hc

/-- A write in range keeps the canonical form. -/
theorem Memory.set_wf (n : Nat) (m : Memory) (a : Nat) (v : Word) (ha : a < n) (h : Memory.wf n m = true) :
    Memory.wf n (Memory.set m a v) = true := by
  by_cases hv : v = 0#16
  · simpa [Memory.set, hv] using Memory.erase_wf n m a h
  · simp only [Memory.set, hv, if_false]
    exact Memory.insert_wf n _ a v ha hv (fun c hc => ((Memory.mem_erase m a c).1 hc).2) (Memory.erase_wf n m a h)

theorem loadWordsFrom_wf (i : Nat) (ws : List Word) :
    Memory.wf imemWords (loadWordsFrom i ws) = true ∧ ∀ c ∈ loadWordsFrom i ws, i ≤ c.1 := by
  induction ws generalizing i with
  | nil => exact ⟨rfl, by simp [loadWordsFrom]⟩
  | cons w ws ih =>
    obtain ⟨hwf, hge⟩ := ih (i + 1)
    by_cases hi : i < imemWords
    · by_cases hw : w = 0#16
      · simp only [loadWordsFrom, hi, hw, if_true]
        exact ⟨hwf, fun c hc => Nat.le_of_succ_le (hge c hc)⟩
      · simp only [loadWordsFrom, hi, hw, if_true, if_false]
        rw [Memory.wf_iff] at hwf ⊢
        refine ⟨⟨List.pairwise_cons.2 ⟨fun c hc => hge c hc, hwf.1⟩, ?_⟩, ?_⟩
        · rintro c (_ | ⟨_, hc⟩)
          · exact ⟨hi, hw⟩
          · exact hwf.2 c hc
        · rintro c (_ | ⟨_, hc⟩)
          · exact le_refl i
          · exact Nat.le_of_succ_le (hge c hc)
    · simp [loadWordsFrom, hi, Memory.wf]

/-- The load of an image gives a store in its canonical form. -/
theorem loadWords_wf (ws : List Word) : Memory.wf imemWords (loadWords ws) = true := (loadWordsFrom_wf 0 ws).1

end Sys2Proof.Machine
end

