-- ==== Sys2Proof/Laws/Ops.lean ====
section
/-! SUPPORT. What each shared operation leaves in each field of the state, so that no later proof unfolds one. -/

namespace Sys2Proof.Machine

section
variable (s : State)

@[simp] theorem addCycles_eq (n : Nat) : addCycles s n = s.setCycles (s.cycles + n) := rfl

@[simp] theorem charge_eq (i : Instr) : charge i s = s.setCycles (s.cycles + extraCost i) := rfl

@[simp] theorem advance_eq : advance s = (s.setCycles (s.cycles + 1)).setPc (s.pc + 1) := rfl

@[simp] theorem writeAluResult_eq (r : Word) : writeAluResult r s = (s.setX r).setZ (r == 0) := rfl

@[simp] theorem jumpTo_eq (t : Word) : jumpTo t s = s.setPc t := rfl

@[simp] theorem halt_eq : halt s = s.setStatus .halted := rfl

/-- A conditional jump changes PC alone. -/
theorem jumpIf_eq (b : Bool) (t : Word) : jumpIf b t s = s.setPc (if b then t else s.pc) := by
  cases b <;> rfl

/-- A controller write changes the data store alone. -/
theorem dmemWrite_eq (a v : Word) :
    dmemWrite s a v = s.setDmem (if a.toNat < dmemWords then Memory.set s.dmem a.toNat v else s.dmem) := by
  unfold dmemWrite; split <;> rfl

/-- A store through P changes P and the data store alone. -/
theorem storeAt_eq (a v : Word) :
    storeAt a v s = (s.setP a).setDmem (if a.toNat < dmemWords then Memory.set s.dmem a.toNat v else s.dmem) := by
  rw [storeAt, dmemWrite_eq]; rfl

/-- The data store's controller: a read after a write (R64, R65). -/
theorem dmemRead_dmemWrite (a b v : Word) :
    dmemRead (dmemWrite s a v) b = if b = a ∧ a.toNat < dmemWords then v else dmemRead s b := by
  rw [dmemWrite_eq]
  by_cases ha : a.toNat < dmemWords
  · by_cases hb : b = a
    · subst hb; simp [dmemRead, ha, Memory.get_set]
    · have : b.toNat ≠ a.toNat := fun h => hb (BitVec.eq_of_toNat_eq h)
      simp [dmemRead, ha, hb, Memory.get_set, this]
  · simp [dmemRead, ha]

/-- The instruction store's controller after the test-only write (R63, R74). -/
theorem imemRead_imemWrite (a b v : Word) :
    imemRead (imemWrite s a v) b = if b = a ∧ a.toNat < imemWords then v else imemRead s b := by
  unfold imemWrite
  by_cases ha : a.toNat < imemWords
  · by_cases hb : b = a
    · subst hb; simp [imemRead, ha, Memory.get_set]
    · have : b.toNat ≠ a.toNat := fun h => hb (BitVec.eq_of_toNat_eq h)
      simp [imemRead, ha, hb, Memory.get_set, this]
  · simp [ha]

/-- A controller write keeps the canonical form of the data store. -/
theorem dmemWrite_wf (a v : Word) (h : Memory.wf dmemWords s.dmem = true) :
    Memory.wf dmemWords (dmemWrite s a v).dmem = true := by
  unfold dmemWrite
  split
  · rename_i ha; exact Memory.set_wf _ _ _ _ ha h
  · exact h

/-- The test-only write keeps the canonical form of the instruction store. -/
theorem imemWrite_wf (a v : Word) (h : Memory.wf imemWords s.imem = true) :
    Memory.wf imemWords (imemWrite s a v).imem = true := by
  unfold imemWrite
  split
  · rename_i ha; exact Memory.set_wf _ _ _ _ ha h
  · exact h

end

/-- ADD's result is the sum of the words. -/
theorem addResult_eq (x y : Word) : addResult x y = x + y := by
  apply BitVec.eq_of_toNat_eq; simp [addResult]

/-- SUB's result is the difference of the words. -/
theorem subResult_eq (x y : Word) : subResult x y = x - y := by
  apply BitVec.eq_of_toNat_eq
  have hx := x.isLt
  have hy := y.isLt
  simp only [subResult, BitVec.toNat_ofInt, BitVec.toNat_sub]
  omega

/-- A zero-extended operand is in 0..0xFFF (R92). -/
theorem zext16_le (imm : Operand) : (imm.setWidth 16 : Word).toNat ≤ 0xFFF := by
  have := imm.isLt
  simp only [BitVec.toNat_setWidth]
  omega

end Sys2Proof.Machine
end

