-- ==== Sys2Proof/Laws/PerInstr.lean ====
section
/-! SUPPORT. A family of statements made for each instruction: the two fields of its encoding (R91, R96). -/

namespace Sys2Proof.Laws.EncodingFields

/-- The four opcode bits of the word are the instruction's row of R94, and its low bits are the operand, 0 where the
instruction has none. -/
def Statement (i : Instr) : Prop :=
  opcodeField (encode i) = opcodeOf i.mnemonic ∧ operandField (encode i) = i.operand.getD 0

/-- The fields of a word made of two fields. -/
theorem fields_of_encodeFields (op : Opcode) (imm : Operand) :
    opcodeField (encodeFields op imm) = op ∧ operandField (encodeFields op imm) = imm := by
  constructor
  · apply BitVec.eq_of_getLsbD_eq
    intro k hk
    have high : 12 + k < 16 := by omega
    simp [opcodeField, encodeFields, hk, high]
  · apply BitVec.eq_of_getLsbD_eq
    intro k hk
    simp [operandField, encodeFields, hk]
    omega

theorem add : Statement .add := fields_of_encodeFields _ _
theorem sub : Statement .sub := fields_of_encodeFields _ _
theorem and : Statement .and := fields_of_encodeFields _ _
theorem or : Statement .or := fields_of_encodeFields _ _
theorem xor : Statement .xor := fields_of_encodeFields _ _
theorem not : Statement .not := fields_of_encodeFields _ _
theorem ldxI (imm : Operand) : Statement (.ldxI imm) := fields_of_encodeFields _ _
theorem ldyI (imm : Operand) : Statement (.ldyI imm) := fields_of_encodeFields _ _
theorem stx (imm : Operand) : Statement (.stx imm) := fields_of_encodeFields _ _
theorem sty (imm : Operand) : Statement (.sty imm) := fields_of_encodeFields _ _
theorem jmp (imm : Operand) : Statement (.jmp imm) := fields_of_encodeFields _ _
theorem jic (imm : Operand) : Statement (.jic imm) := fields_of_encodeFields _ _
theorem jiz (imm : Operand) : Statement (.jiz imm) := fields_of_encodeFields _ _
theorem hlt : Statement .hlt := fields_of_encodeFields _ _
theorem ldxA (imm : Operand) : Statement (.ldxA imm) := fields_of_encodeFields _ _
theorem ldyA (imm : Operand) : Statement (.ldyA imm) := fields_of_encodeFields _ _

end Sys2Proof.Laws.EncodingFields
end

