-- ==== Sys2Proof/Laws/Step.lean ====
section
/-! SUPPORT. What each meaning answers, as updates of fields, and how a step goes by the status. -/

namespace Sys2Proof.Machine

section
variable (s : State) (imm : Operand)

theorem execAdd_eq : execAdd s = .next
    ((((s.setC (addCarry s.x s.y)).setX (addResult s.x s.y)).setZ (addResult s.x s.y == 0)).setCycles (s.cycles + 1)) := rfl

theorem execSub_eq : execSub s = .next
    ((((s.setC (subCarry s.x s.y)).setX (subResult s.x s.y)).setZ (subResult s.x s.y == 0)).setCycles (s.cycles + 1)) := rfl

theorem execAnd_eq : execAnd s = .next
    (((s.setX (s.x &&& s.y)).setZ (s.x &&& s.y == 0)).setCycles (s.cycles + 1)) := rfl

theorem execOr_eq : execOr s = .next
    (((s.setX (s.x ||| s.y)).setZ (s.x ||| s.y == 0)).setCycles (s.cycles + 1)) := rfl

theorem execXor_eq : execXor s = .next
    (((s.setX (s.x ^^^ s.y)).setZ (s.x ^^^ s.y == 0)).setCycles (s.cycles + 1)) := rfl

theorem execNot_eq : execNot s = .next
    (((s.setX (complement s.x)).setZ (complement s.x == 0)).setCycles (s.cycles + 1)) := rfl

theorem execLdxI_eq : execLdxI imm s = .next ((s.setX (zext16 imm)).setCycles s.cycles) := rfl

theorem execLdyI_eq : execLdyI imm s = .next ((s.setY (zext16 imm)).setCycles s.cycles) := rfl

theorem execStx_eq : execStx imm s = .next
    ((dmemWrite (s.setP (zext16 imm)) (zext16 imm) s.x).setCycles (s.cycles + 4)) := by
  simp [execStx, dataAddress, storeAt_eq, dmemWrite_eq, extraCost]

theorem execSty_eq : execSty imm s = .next
    ((dmemWrite (s.setP (zext16 imm)) (zext16 imm) s.y).setCycles (s.cycles + 4)) := by
  simp [execSty, dataAddress, storeAt_eq, dmemWrite_eq, extraCost]

theorem execJmp_eq : execJmp imm s = .next ((s.setPc (zext16 imm)).setCycles (s.cycles + 1)) := rfl

theorem execJic_eq : execJic imm s = .next
    ((s.setPc (if s.c then zext16 imm else s.pc)).setCycles (s.cycles + 1)) := by
  simp [execJic, jumpTarget, jumpIf_eq, extraCost]

theorem execJiz_eq : execJiz imm s = .next
    ((s.setPc (if s.z then zext16 imm else s.pc)).setCycles (s.cycles + 1)) := by
  simp [execJiz, jumpTarget, jumpIf_eq, extraCost]

theorem execHlt_eq : execHlt s = .next ((s.setStatus .halted).setCycles s.cycles) := rfl

theorem execLdxA_eq : execLdxA imm s = .next
    (((s.setP (zext16 imm)).setX (dmemRead s (zext16 imm))).setCycles (s.cycles + 4)) := rfl

theorem execLdyA_eq : execLdyA imm s = .next
    (((s.setP (zext16 imm)).setY (dmemRead s (zext16 imm))).setCycles (s.cycles + 4)) := rfl

end

/-- Outside a run nothing happens (R212). -/
theorem step_not_running (s : State) (h : s.status ≠ .running) : step s = .next s := by
  cases hs : s.status with
  | running => exact absurd hs h
  | halted => simp [step, hs]
  | notRunning => simp [step, hs]

/-- Everything a step can do: nothing outside a run; inside one, the decoded instruction on the advanced state. -/
theorem step_cases (s : State) :
    (s.status ≠ .running ∧ step s = .next s) ∨
      (s.status = .running ∧ step s = exec (decode (imemRead s s.pc)) (advance s)) := by
  cases hs : s.status with
  | running => exact .inr ⟨rfl, by simp [step, hs, fetched]⟩
  | halted => exact .inl ⟨by simp, by simp [step, hs]⟩
  | notRunning => exact .inl ⟨by simp, by simp [step, hs]⟩

end Sys2Proof.Machine
end

