-- ==== Sys2Proof/Laws/Run.lean ====
section
/-! SUPPORT. How a sequence of steps and the loop of a run command unfold by one step. -/

namespace Sys2Proof.Machine

@[simp] theorem core_run_zero (s : State) : Sys2Proof.core.run 0 s = .next s := rfl

theorem core_run_succ (k : Nat) (s t : State) (h : step s = .next t) :
    Sys2Proof.core.run (k + 1) s = Sys2Proof.core.run k t := by
  have e : Sys2Proof.core.step s = .next t := h
  simp only [Host.Core.run, e]

/-- The budget test of R114 as a proposition. -/
theorem budgetSpent_iff (max : Nat) (s : State) : budgetSpent max s = true ↔ 0 < max ∧ max ≤ s.cycles := by
  simp [budgetSpent]

/-- A round of the loop on a state that has spent the budget. -/
theorem runLoop_spent (max fuel : Nat) (s : State) (h : budgetSpent max s = true) :
    runLoop max (fuel + 1) s = some { state := s, cycles := s.cycles, outcome := .budgetExhausted } := by
  simp [runLoop, h]

/-- A round of the loop whose step halts. -/
theorem runLoop_halts (max fuel : Nat) (s t : State) (h : budgetSpent max s = false) (e : step s = .next t)
    (ht : t.status = .halted) :
    runLoop max (fuel + 1) s = some { state := t, cycles := t.cycles, outcome := .halted } := by
  simp [runLoop, h, e, ht]

/-- A round of the loop whose step does not halt. -/
theorem runLoop_goes_on (max fuel : Nat) (s t : State) (h : budgetSpent max s = false) (e : step s = .next t)
    (ht : t.status ≠ .halted) : runLoop max (fuel + 1) s = runLoop max fuel t := by
  simp [runLoop, h, e, ht]

end Sys2Proof.Machine
end

