-- ==== Sys2Proof/Tests/Slice0.lean ====
section
/-! SUPPORT. The model's own tests. Expected results come from spec/95_test_vectors.md (its section is named) or from the
rule named; each is one step, or one command, on a small state. The witnesses show that the hypotheses of each statement of
Certificates/Slice0/Obligations.lean can be met. -/

namespace Sys2Proof.Tests

open Sys2Proof.Machine

/-- A core in a run, everything else as at construction. -/
def start : State := { State.reset with status := .running }

/-- The state with a word at instruction address 0. -/
def word (w : Word) (s : State) : State := { s with imem := if w = 0#16 then [] else [(0, w)] }

/-- What a vector of 95_test_vectors.md lists: PC, X, Y, P, C, Z and the cycle count. -/
structure Seen where
  pc : Word
  x : Word
  y : Word
  p : Word
  c : Bool
  z : Bool
  cycles : Nat
  deriving DecidableEq, Repr

/-- What is seen after one step. -/
def seen (s : State) : Option Seen :=
  match step s with
  | .next t => some ⟨t.pc, t.x, t.y, t.p, t.c, t.z, t.cycles⟩
  | .fault _ => none
  | .refused _ => none

/-- A word of the data store after one step. -/
def stored (s : State) (a : Word) : Option Word :=
  match step s with
  | .next t => some (dmemRead t a)
  | .fault _ => none
  | .refused _ => none

/-! ### WellFormed: one ill-formed written form for each check, refused -/

theorem test_alone_mnemonic_takes_no_operand : Written.wellFormed ⟨.ADD, some 0⟩ = false := by decide
theorem test_operand_is_required : Written.wellFormed ⟨.LDX_I, none⟩ = false := by decide
theorem test_operand_is_twelve_bits : Written.wellFormed ⟨.STX, some 0x1000⟩ = false := by decide
theorem test_largest_operand_is_well_formed : Written.wellFormed ⟨.STX, some 0xFFF⟩ = true := by decide
theorem test_written_form_assembles : assemble ⟨.JIC, some 0xFF0⟩ = some (.jic 0xFF0) := by decide

/-! ### Decode: a word of each row of 30_encoding.md R94, written out bit by bit -/

theorem test_decode_add : decode 0b0000111111111111#16 = .add := by decide
theorem test_decode_sub : decode 0b0001000000000000#16 = .sub := by decide
theorem test_decode_and : decode 0b0010000000000001#16 = .and := by decide
theorem test_decode_or : decode 0b0011000000000000#16 = .or := by decide
theorem test_decode_xor : decode 0b0100100000000000#16 = .xor := by decide
theorem test_decode_not : decode 0b0101000000000000#16 = .not := by decide
theorem test_decode_ldxI : decode 0b0110000011110000#16 = .ldxI 0x0F0 := by decide
theorem test_decode_ldyI : decode 0b0111101010111100#16 = .ldyI 0xABC := by decide
theorem test_decode_stx : decode 0b1000000000000001#16 = .stx 0x001 := by decide
theorem test_decode_sty : decode 0b1001000010111111#16 = .sty 0x0BF := by decide
theorem test_decode_jmp : decode 0b1010000000000100#16 = .jmp 0x004 := by decide
theorem test_decode_jic : decode 0b1011111111110000#16 = .jic 0xFF0 := by decide
theorem test_decode_jiz : decode 0b1100000000001110#16 = .jiz 0x00E := by decide
theorem test_decode_hlt : decode 0b1101000100100011#16 = .hlt := by decide
theorem test_decode_ldxA : decode 0b1110000011000000#16 = .ldxA 0x0C0 := by decide
theorem test_decode_ldyA : decode 0b1111111111111111#16 = .ldyA 0xFFF := by decide

theorem test_encode_puts_the_operand_low : encode (.jic 0xFF0) = 0xBFF0 := by decide
theorem test_table_word_decodes : decodeTableWord 16 0x7ABC = some (.ldyI 0xABC) := by decide
theorem test_odd_byte_is_truncated : (decodeBytes .little [0x02]).toOption = none := by decide
theorem test_bytes_little : wordsOfBytes .little [0x02, 0x60, 0x02, 0x70, 0x00] = [0x6002, 0x7002] := by decide
theorem test_bytes_big : wordsOfBytes .big [0x60, 0x02, 0x70, 0x02] = [0x6002, 0x7002] := by decide

/-! ### ALU (95_test_vectors.md 2.1) -/

theorem test_add_wraps_to_zero : seen (word 0x0000 { start with x := 0xFFFF, y := 0x0001 }) = some ⟨1, 0, 1, 0, true, true, 2⟩ := by decide
theorem test_add_clears_flags : seen (word 0x0000 { start with x := 0x1234, c := true, z := true }) = some ⟨1, 0x1234, 0, 0, false, false, 2⟩ := by decide
theorem test_sub_borrows : seen (word 0x1000 { start with x := 0x0003, y := 0x0005, z := true }) = some ⟨1, 0xFFFE, 5, 0, true, false, 2⟩ := by decide
theorem test_sub_clears_carry : seen (word 0x1000 { start with x := 0x8000, y := 0x0001, c := true }) = some ⟨1, 0x7FFF, 1, 0, false, false, 2⟩ := by decide
theorem test_and_keeps_carry : seen (word 0x2000 { start with x := 0x0F0F, y := 0x00FF, c := true }) = some ⟨1, 0x000F, 0x00FF, 0, true, false, 2⟩ := by decide
theorem test_or_keeps_carry : seen (word 0x3000 { start with x := 0x00F0, y := 0x000F, c := true }) = some ⟨1, 0x00FF, 0x000F, 0, true, false, 2⟩ := by decide
theorem test_xor_equal_is_zero : seen (word 0x4000 { start with x := 0xABCD, y := 0xABCD, c := true }) = some ⟨1, 0, 0xABCD, 0, true, true, 2⟩ := by decide
theorem test_not_ignores_y : seen (word 0x5000 { start with x := 0x0FFF, y := 0x1234, c := true }) = some ⟨1, 0xF000, 0x1234, 0, true, false, 2⟩ := by decide

/-! ### Load immediate (2.2) -/

theorem test_ldx_i_zero_extends : seen (word 0x6FFF { start with x := 0xF000, c := true, z := true }) = some ⟨1, 0x0FFF, 0, 0, true, true, 1⟩ := by decide
theorem test_ldx_i_zero_keeps_z : seen (word 0x6000 { start with x := 0x1234 }) = some ⟨1, 0, 0, 0, false, false, 1⟩ := by decide
theorem test_ldy_i : seen (word 0x7ABC { start with x := 0x0007 }) = some ⟨1, 7, 0x0ABC, 0, false, false, 1⟩ := by decide

/-! ### Stores (2.3) -/

theorem test_stx_out_of_range_sets_p : seen (word 0x80C0 { start with x := 0xBEEF }) = some ⟨1, 0xBEEF, 0, 0x00C0, false, false, 5⟩ := by decide
theorem test_stx_last_cell : stored (word 0x80BF { start with x := 0xBEEF }) 191 = some 0xBEEF := by decide
theorem test_sty_replaces_p : seen (word 0x9005 { start with y := 0x0ABC, p := 0x0077 }) = some ⟨1, 0, 0x0ABC, 5, false, false, 5⟩ := by decide
theorem test_sty_stores_y : stored (word 0x9005 { start with x := 1, y := 0x0ABC }) 5 = some 0x0ABC := by decide

/-! ### Loads from memory (2.4) -/

theorem test_ldx_a_out_of_range : seen (word 0xE0C0 { start with x := 0x1234 }) = some ⟨1, 0, 0, 0x00C0, false, false, 5⟩ := by decide
theorem test_ldx_a_reads_cell : seen (word 0xE001 { start with dmem := [(1, 0x00F0)] }) = some ⟨1, 0x00F0, 0, 1, false, false, 5⟩ := by decide
theorem test_ldy_a_full_word : seen (word 0xF000 { start with dmem := [(0, 0xFFFF)] }) = some ⟨1, 0, 0xFFFF, 0, false, false, 5⟩ := by decide

/-! ### Control transfer and halt (2.5, 2.6) -/

theorem test_jmp : seen (word 0xA004 { start with x := 1 }) = some ⟨4, 1, 0, 0, false, false, 2⟩ := by decide
theorem test_jic_taken : seen (word 0xBFF0 { start with c := true }) = some ⟨0x0FF0, 0, 0, 0, true, false, 2⟩ := by decide
theorem test_jic_falls_through : seen (word 0xBFF0 { start with z := true }) = some ⟨1, 0, 0, 0, false, true, 2⟩ := by decide
theorem test_jiz_taken : seen (word 0xC00E { start with z := true }) = some ⟨0x000E, 0, 0, 0, false, true, 2⟩ := by decide
theorem test_jiz_falls_through : seen (word 0xC00E { start with c := true }) = some ⟨1, 0, 0, 0, true, false, 2⟩ := by decide
theorem test_hlt : seen (word 0xD123 { start with x := 9 }) = some ⟨1, 9, 0, 0, false, false, 1⟩ := by decide
theorem test_pc_wraps_and_empty_fetch_adds :
    seen { start with pc := 0xFFFF, y := 1 } = some ⟨0, 1, 1, 0, false, false, 2⟩ := by decide

/-! ### Host commands (2.6, 2.7, P4, P5) -/

theorem test_halt_returns_one_cycle :
    (runCommand defaultParams 9 10 (construct defaultParams (.words [0xD000]))).map (fun r => (r.cycles, r.outcome)) =
      some (1, .halted) := by decide
theorem test_fetched_jic_completes_past_the_budget :
    (runLoop 5 2 { word 0xBFF0 start with c := true, cycles := 4 }).map (fun r => (r.state.pc, r.cycles, r.outcome)) =
      some (0x0FF0, 6, .budgetExhausted) := by decide
theorem test_reset_keeps_p_and_dmem :
    resetCommand { State.reset with pc := 5, x := 1, y := 2, p := 3, c := true, z := true, dmem := [(3, 7)] } =
      { State.reset with p := 3, dmem := [(3, 7)] } := by decide
theorem test_load_skips_zero_words : loadWords [0x6002, 0, 0x7002] = [(0, 0x6002), (2, 0x7002)] := by decide
theorem test_write_of_zero_removes_the_entry : Memory.set [(1, 5), (3, 7)] 3 0 = [(1, 5)] := by decide
theorem test_write_keeps_the_order : Memory.set [(1, 5), (3, 7)] 2 6 = [(1, 5), (2, 6), (3, 7)] := by decide
theorem test_placed_word_runs :
    seen (State.reset.withFetchWord 16 0x6002) = some ⟨1, 2, 0, 0, false, false, 1⟩ := by decide

/-! ### Witnesses: the hypotheses of each statement can be met -/

theorem witness_AddWritesSumCarryAndZero :
    0x0123#16 &&& 0xF000 = 0x0000 ∧ (word 0x0123 start).status = .running ∧
      imemRead (word 0x0123 start) (word 0x0123 start).pc &&& 0xF000 = 0x0000 := by decide
theorem witness_SubWritesDifferenceBorrowAndZero :
    0x1123#16 &&& 0xF000 = 0x1000 ∧ (word 0x1123 start).status = .running ∧
      imemRead (word 0x1123 start) (word 0x1123 start).pc &&& 0xF000 = 0x1000 := by decide
theorem witness_AndWritesConjunctionAndZero :
    0x2123#16 &&& 0xF000 = 0x2000 ∧ (word 0x2123 start).status = .running ∧
      imemRead (word 0x2123 start) (word 0x2123 start).pc &&& 0xF000 = 0x2000 := by decide
theorem witness_OrWritesDisjunctionAndZero :
    0x3123#16 &&& 0xF000 = 0x3000 ∧ (word 0x3123 start).status = .running ∧
      imemRead (word 0x3123 start) (word 0x3123 start).pc &&& 0xF000 = 0x3000 := by decide
theorem witness_XorWritesDifferenceBitsAndZero :
    0x4123#16 &&& 0xF000 = 0x4000 ∧ (word 0x4123 start).status = .running ∧
      imemRead (word 0x4123 start) (word 0x4123 start).pc &&& 0xF000 = 0x4000 := by decide
theorem witness_NotWritesComplementAndZero :
    0x5123#16 &&& 0xF000 = 0x5000 ∧ (word 0x5123 start).status = .running ∧
      imemRead (word 0x5123 start) (word 0x5123 start).pc &&& 0xF000 = 0x5000 := by decide
theorem witness_LoadXImmediateWritesOperand :
    0x6FFF#16 &&& 0xF000 = 0x6000 ∧ (word 0x6FFF start).status = .running ∧
      imemRead (word 0x6FFF start) (word 0x6FFF start).pc &&& 0xF000 = 0x6000 := by decide
theorem witness_LoadYImmediateWritesOperand :
    0x7FFF#16 &&& 0xF000 = 0x7000 ∧ (word 0x7FFF start).status = .running ∧
      imemRead (word 0x7FFF start) (word 0x7FFF start).pc &&& 0xF000 = 0x7000 := by decide
theorem witness_StoreXWritesPointerAndCell :
    0x80BF#16 &&& 0xF000 = 0x8000 ∧ (word 0x80BF start).status = .running ∧
      imemRead (word 0x80BF start) (word 0x80BF start).pc &&& 0xF000 = 0x8000 := by decide
theorem witness_StoreYWritesPointerAndCell :
    0x90C0#16 &&& 0xF000 = 0x9000 ∧ (word 0x90C0 start).status = .running ∧
      imemRead (word 0x90C0 start) (word 0x90C0 start).pc &&& 0xF000 = 0x9000 := by decide
theorem witness_JumpSetsProgramCounter :
    0xAFFF#16 &&& 0xF000 = 0xA000 ∧ (word 0xAFFF start).status = .running ∧
      imemRead (word 0xAFFF start) (word 0xAFFF start).pc &&& 0xF000 = 0xA000 := by decide
theorem witness_JumpIfCarryTestsCarry :
    0xBFF0#16 &&& 0xF000 = 0xB000 ∧ (word 0xBFF0 start).status = .running ∧
      imemRead (word 0xBFF0 start) (word 0xBFF0 start).pc &&& 0xF000 = 0xB000 := by decide
theorem witness_JumpIfZeroTestsZero :
    0xC00E#16 &&& 0xF000 = 0xC000 ∧ (word 0xC00E start).status = .running ∧
      imemRead (word 0xC00E start) (word 0xC00E start).pc &&& 0xF000 = 0xC000 := by decide
theorem witness_LoadXMemoryReadsCell :
    0xE0C0#16 &&& 0xF000 = 0xE000 ∧ (word 0xE0C0 start).status = .running ∧
      imemRead (word 0xE0C0 start) (word 0xE0C0 start).pc &&& 0xF000 = 0xE000 := by decide
theorem witness_LoadYMemoryReadsCell :
    0xF0BF#16 &&& 0xF000 = 0xF000 ∧ (word 0xF0BF start).status = .running ∧
      imemRead (word 0xF0BF start) (word 0xF0BF start).pc &&& 0xF000 = 0xF000 := by decide
/-- The clause on the other instructions, at the largest Y it speaks of. -/
theorem witness_LoadYMemoryReadsCell_only_way :
    (Instr.ldyI 0xFFF).mnemonic ≠ .LDY_A ∧ { start with y := 0x0FFF }.y.toNat ≤ 0x0FFF := by decide
/-- The range clause of the two stores, at its boundary. -/
theorem witness_store_out_of_range : 192 ≤ (0x0C0 : Operand).toNat ∧ ¬ 192 ≤ (0x0BF : Operand).toNat := by decide
/-- Both budgets of the run clause: none, and one not yet spent. -/
theorem witness_HaltEndsTheRun :
    0xD123#16 &&& 0xF000 = 0xD000 ∧ (word 0xD123 start).status = .running ∧
      imemRead (word 0xD123 start) (word 0xD123 start).pc &&& 0xF000 = 0xD000 ∧
      (0 < 1 → (word 0xD123 start).cycles < 1) ∧ (0 < 0 → (word 0xD123 start).cycles < 0) := by decide
theorem witness_DecodeOfEncodeIsIdentity : (Instr.stx 0xFFF).wellFormed = true := by decide
theorem witness_EveryWordSelectsExactlyOneRow : (decode 0x80BF).operand = some 0x0BF := by decide
theorem witness_WrittenFormsStandForInstructions :
    Written.wellFormed ⟨.STX, some 0xFFF⟩ = true ∧ Written.wellFormed ⟨.HLT, none⟩ = true ∧
      Written.wellFormed ⟨.STX, some 0x1000⟩ = false ∧ 4096 ≤ 0x1000 := by decide
/-- Also the range clauses of DataStoreWriteThenRead, OnlyStoresChangeTheDataStore and HostReadsWithoutChange. -/
theorem witness_ControllerReadsAreBoundsChecked :
    (191 : Word).toNat < 192 ∧ 192 ≤ (192 : Word).toNat := by decide
theorem witness_CanonicalStoresReadingAlikeAreEqual :
    Memory.wf 192 [(0, 1), (191, 2)] = true ∧ Memory.wf 192 (Memory.set [(191, 2)] 0 1) = true ∧
      ∀ a, a < 192 → Memory.get [(0, 1), (191, 2)] a = Memory.get (Memory.set [(191, 2)] 0 1) a :=
  ⟨by decide, by decide, fun _ _ => rfl⟩
theorem witness_StepRunsTheDecodedInstruction : start.status = .running ∧ State.reset.status ≠ .running := by decide
theorem witness_PlacedWordRunsNext : 0xFFFF < 65536 := by decide
/-- Also of OnlyJumpsOverrideTheAdvance. -/
theorem witness_EachStepChargesTheTablesCost : (word 0xFFFF start).status = .running := by decide
theorem witness_FetchBeyondTheStoreAdds :
    { start with pc := 192 }.status = .running ∧ 192 ≤ { start with pc := 192 }.pc.toNat ∧
      192 ≤ { start with pc := 0xFFFF }.pc.toNat := by decide
theorem witness_GeneralRegistersWrittenOnlyByTheirInstructions :
    (Instr.jmp 4).mnemonic ∉ [Mnemonic.ADD, .SUB, .AND, .OR, .XOR, .NOT, .LDX_I, .LDX_A] ∧
      Instr.add.mnemonic ∉ [Mnemonic.LDY_I, .LDY_A] ∧
      Instr.not.mnemonic ∉ [Mnemonic.ADD, .SUB, .AND, .OR, .XOR, .STY] := by decide
/-- Also of OnlyAluWritesZeroFromNewX. -/
theorem witness_OnlyAddAndSubWriteCarry :
    (Instr.jiz 4).mnemonic ≠ .JIC ∧ (Instr.jic 4).mnemonic ≠ .JIZ := by decide
/-- Also of OnlyStoresChangeTheDataStore. -/
theorem witness_PointerIsTheLastDataAddress :
    (Instr.stx 4).mnemonic ∈ [Mnemonic.STX, .STY, .LDX_A, .LDY_A] ∧
      Instr.add.mnemonic ∉ [Mnemonic.STX, .STY, .LDX_A, .LDY_A] ∧
      Instr.add.mnemonic ∉ [Mnemonic.STX, .STY] := by decide
theorem witness_InstructionStoreIsReadOnly :
    hostCommand defaultParams 1 .reset start = .done State.reset .nothing ∧
      hostCommand defaultParams 1 (.construct (.words [])) start = .done State.reset .nothing ∧
      hostCommand { defaultParams with testBuild := true } 1 (.imemWrite 0 5) State.reset =
        .done (imemWrite State.reset 0 5) .nothing := by decide
theorem witness_OnlyStoresChangeTheDataStore :
    hostCommand defaultParams 1 .reset start = .done State.reset .nothing ∧
      (∀ image, Command.reset ≠ .construct image) ∧ ∀ budget, Command.reset ≠ .run budget :=
  ⟨rfl, nofun, nofun⟩
theorem witness_LoadAfterStoreGivesTheStoredWord : (0x0BF : Operand) ≠ 0x0C0 := by decide
theorem witness_EarlierPointerNeverMatters : State.EqualButP start { start with p := 7 } := rfl
theorem witness_StepKeepsTheInvariant :
    start.Inv ∧ ∃ t, step start = .next t := ⟨⟨by decide, by decide, by decide⟩, ⟨_, rfl⟩⟩
theorem witness_HostCommandsKeepTheInvariant :
    start.Inv ∧ hostCommand defaultParams 1 .reset start = .done State.reset .nothing :=
  ⟨⟨by decide, by decide, by decide⟩, rfl⟩
/-- Also of UnboundedRunReturnsOnlyByHalt. -/
theorem witness_RunIsIteratedSteps :
    ¬ (defaultParams.haltSticky = true ∧ State.reset.status = .halted) ∧
      ¬ ({ defaultParams with haltSticky := true }.haltSticky = true ∧ State.reset.status = .halted) := by decide
/-- A run that returns and one that the fuel does not suffice for. -/
theorem witness_RunIsIteratedSteps_host_clauses :
    (∃ r, runCommand defaultParams 1 10 (construct defaultParams (.words [0xD000])) = some r) ∧
      runCommand defaultParams 0 10 (construct defaultParams (.words [0xD000])) = none := ⟨⟨_, rfl⟩, rfl⟩
/-- A HLT whose own fetch reaches the budget (95_test_vectors.md 2.6; R202). -/
theorem test_halt_at_the_budget_is_halted :
    (runLoop 2 1 { word 0xD000 start with cycles := 1 }).map (fun r => (r.cycles, r.outcome)) = some (2, .halted) := by
  decide
/-- The largest overshoot (95_test_vectors.md 2.6). -/
theorem witness_BudgetOvershootsByAtMostFour :
    ∃ r, runCommand defaultParams 2 1 (construct defaultParams (.words [0x8000, 0xD000])) = some r ∧
      r.outcome = .budgetExhausted ∧ r.cycles = 5 := ⟨_, rfl, rfl, rfl⟩
theorem witness_CountIsTheSumOfCosts :
    ∃ t, State.Runs 1 (word 0x8000 start) 1 t :=
  ⟨_, rfl, fun j hj => ⟨word 0x8000 start, by obtain rfl : j = 0 := Nat.lt_one_iff.1 hj; rfl, rfl, by decide⟩⟩
theorem witness_RunAfterHaltFollowsHaltSticky :
    defaultParams.haltSticky = false ∧ { defaultParams with haltSticky := true }.haltSticky = true ∧
      { start with status := .halted }.status = .halted := by decide
/-- Also of MoreFuelGivesTheSameRun; the budget 1 stops this run after its first instruction. -/
theorem witness_BudgetedRunResumesToTheSameEnd :
    ∃ r, 0 < 1 ∧ runCommand defaultParams 2 0 (construct defaultParams (.words [0x6001, 0xD000])) = some r :=
  ⟨_, by decide, rfl⟩
theorem witness_HaltedCoreStaysAsItIs : { start with status := .halted }.status = .halted := by decide
theorem witness_ImemWriteIsForTestBuilds :
    defaultParams.testBuild = false ∧ { defaultParams with testBuild := true }.testBuild = true := by decide

end Sys2Proof.Tests
end

/-! The zero flag across the instruction set (R39, R140). With respect to Z the instructions fall into two classes: the six
ALU instructions overwrite Z with a value that does not depend on the old one, and all others carry it through. -/

namespace Sys2Proof.Machine

/-- The instructions that recompute Z (R140). -/
abbrev aluInstrs : List Instr := [.add, .sub, .and, .or, .xor, .not]

@[simp] theorem State.setZ_self (s : State) : s.setZ s.z = s := rfl

@[simp] theorem State.setZ_setZ (s : State) (b b' : Bool) : (s.setZ b).setZ b' = s.setZ b' := rfl

/-- A store through P keeps Z. -/
@[simp] theorem storeAt_z (s : State) (a v : Word) : (storeAt a v s).z = s.z := by
  simp [storeAt_eq]

/-- A store through P does not look at Z. -/
theorem storeAt_setZ (s : State) (b : Bool) (a v : Word) :
    storeAt a v (s.setZ b) = (storeAt a v s).setZ b := by
  rw [storeAt_eq, storeAt_eq]; rfl

/-- An ALU instruction sets Z from the X it leaves, and its next state is the same whatever Z was. -/
theorem exec_of_mem_aluInstrs {i : Instr} (hi : i ∈ aluInstrs) (s : State) :
    ∃ t, exec i s = .next t ∧ t.z = decide (t.x = 0) ∧ ∀ b, exec i (s.setZ b) = .next t := by
  simp only [List.mem_cons, List.not_mem_nil, or_false] at hi
  rcases hi with rfl | rfl | rfl | rfl | rfl | rfl
  · exact ⟨_, execAdd_eq s, rfl, fun _ => rfl⟩
  · exact ⟨_, execSub_eq s, rfl, fun _ => rfl⟩
  · exact ⟨_, execAnd_eq s, rfl, fun _ => rfl⟩
  · exact ⟨_, execOr_eq s, rfl, fun _ => rfl⟩
  · exact ⟨_, execXor_eq s, rfl, fun _ => rfl⟩
  · exact ⟨_, execNot_eq s, rfl, fun _ => rfl⟩

/-- Any other instruction carries Z through; unless it is JIZ, a different Z makes no other difference. -/
theorem exec_of_notMem_aluInstrs {i : Instr} (hi : i ∉ aluInstrs) (s : State) :
    ∃ t, exec i s = .next t ∧ t.z = s.z ∧
      (i.mnemonic ≠ .JIZ → ∀ b, exec i (s.setZ b) = .next (t.setZ b)) := by
  cases i with
  | add | sub | and | or | xor | not => exact absurd hi (by decide)
  | ldxI imm => exact ⟨_, execLdxI_eq s imm, rfl, fun _ _ => rfl⟩
  | ldyI imm => exact ⟨_, execLdyI_eq s imm, rfl, fun _ _ => rfl⟩
  | stx imm => exact ⟨_, rfl, storeAt_z s _ _, fun _ b => by rw [exec, execStx, storeAt_setZ]; rfl⟩
  | sty imm => exact ⟨_, rfl, storeAt_z s _ _, fun _ b => by rw [exec, execSty, storeAt_setZ]; rfl⟩
  | jmp imm => exact ⟨_, execJmp_eq s imm, rfl, fun _ _ => rfl⟩
  | jic imm => exact ⟨_, execJic_eq s imm, rfl, fun _ b => execJic_eq (s.setZ b) imm⟩
  | jiz imm => exact ⟨_, execJiz_eq s imm, rfl, fun hj => absurd rfl hj⟩
  | hlt => exact ⟨_, execHlt_eq s, rfl, fun _ _ => rfl⟩
  | ldxA imm => exact ⟨_, execLdxA_eq s imm, rfl, fun _ _ => rfl⟩
  | ldyA imm => exact ⟨_, execLdyA_eq s imm, rfl, fun _ _ => rfl⟩

/-- Settles O33: an ALU instruction answers the same state for every old Z, any other one (JIZ aside) the same state but
for the Z it was given. -/
theorem onlyAluWritesZeroFromNewX : Obligations.OnlyAluWritesZeroFromNewX := by
  intro i s
  by_cases hi : i ∈ aluInstrs
  · obtain ⟨t, hexec, hz, hset⟩ := exec_of_mem_aluInstrs hi s
    exact ⟨t, hexec, by rw [if_pos hi, hz], fun _ b => ⟨t, hset b, t.setZ_self⟩⟩
  · obtain ⟨t, hexec, hz, hset⟩ := exec_of_notMem_aluInstrs hi s
    exact ⟨t, hexec, by rw [if_neg hi, hz], fun hj b => ⟨t.setZ b, hset hj b, t.setZ_setZ b t.z⟩⟩

end Sys2Proof.Machine

/-! The two stores (spec/20_memory.md): the controllers' reads and writes, the load of a word image, and what instructions,
steps, runs and host commands leave of each store. -/

namespace Sys2Proof.Machine

/-! ### The controllers -/

section
variable (s : State)

theorem imemRead_of_lt {a : Word} (ha : a.toNat < imemWords) : imemRead s a = Memory.get s.imem a.toNat := if_pos ha

theorem imemRead_of_le {a : Word} (ha : imemWords ≤ a.toNat) : imemRead s a = 0 := if_neg ha.not_gt

theorem dmemRead_of_lt {a : Word} (ha : a.toNat < dmemWords) : dmemRead s a = Memory.get s.dmem a.toNat := if_pos ha

theorem dmemRead_of_le {a : Word} (ha : dmemWords ≤ a.toNat) : dmemRead s a = 0 := if_neg ha.not_gt

theorem dmemWrite_of_le {a : Word} (ha : dmemWords ≤ a.toNat) (v : Word) : dmemWrite s a v = s := if_neg ha.not_gt

@[simp] theorem dmemWrite_imem (a v : Word) : (dmemWrite s a v).imem = s.imem := by
  rw [dmemWrite_eq]; rfl

@[simp] theorem imemWrite_dmem (a v : Word) : (imemWrite s a v).dmem = s.dmem := by
  unfold imemWrite; split <;> rfl

end

/-- Settles O6: each controller's two cases. -/
theorem controllerReadsAreBoundsChecked : Obligations.ControllerReadsAreBoundsChecked := fun s _ =>
  ⟨fun ha => ⟨imemRead_of_lt s ha, dmemRead_of_lt s ha⟩, fun ha => ⟨imemRead_of_le s ha, dmemRead_of_le s ha⟩⟩

/-- Settles O7, from the controller's read after a write (R64, R65) and from the write being an update of the data store
alone. -/
theorem dataStoreWriteThenRead : Obligations.DataStoreWriteThenRead := by
  intro s a v
  refine ⟨fun ha b => ?_, fun ha => ⟨dmemWrite_of_le s ha v, dmemRead_of_le _ ha⟩, ?_⟩
  · have hlt : a.toNat < dmemWords := ha
    rw [dmemRead_dmemWrite]
    simp only [hlt, and_true]
  · rw [dmemWrite_eq]; rfl

/-! ### The load of a word image -/

/-- A store reads zero at an address it does not list. -/
theorem Memory.get_eq_zero {m : Memory} {a : Nat} (h : ∀ c ∈ m, c.1 ≠ a) : Memory.get m a = 0 := by
  induction m with
  | nil => rfl
  | cons cell m ih =>
    obtain ⟨hcell, hm⟩ := List.forall_mem_cons.1 h
    exact (if_neg hcell).trans (ih hm)

/-- The load from address `i` on leaves the cells below `i` zero. -/
theorem get_loadWordsFrom_of_lt (ws : List Word) {i a : Nat} (ha : a < i) : Memory.get (loadWordsFrom i ws) a = 0 :=
  Memory.get_eq_zero fun c hc => (ha.trans_le ((loadWordsFrom_wf i ws).2 c hc)).ne'

/-- A load whose first word lands in range: that word at `i`, the other words from `i + 1` on. -/
theorem get_loadWordsFrom_cons (w : Word) (ws : List Word) {i : Nat} (hi : i < imemWords) (a : Nat) :
    Memory.get (loadWordsFrom i (w :: ws)) a = if a = i then w else Memory.get (loadWordsFrom (i + 1) ws) a := by
  by_cases hw : w = 0#16
  · simp only [loadWordsFrom, hi, hw, if_true]
    split
    · next ha => exact get_loadWordsFrom_of_lt ws (by omega)
    · rfl
  · simp only [loadWordsFrom, hi, hw, if_true, if_false, Memory.get, eq_comm]

/-- The load from address `i` on puts word `k` of the sequence at `i + k`, zero beyond its end, as far as the capacity
goes. -/
theorem get_loadWordsFrom (ws : List Word) {i k : Nat} (hk : i + k < imemWords) :
    Memory.get (loadWordsFrom i ws) (i + k) = ws.getD k 0 := by
  induction ws generalizing i k with
  | nil => rfl
  | cons w ws ih =>
    rw [get_loadWordsFrom_cons w ws (Nat.lt_of_le_of_lt (Nat.le_add_right i k) hk)]
    cases k with
    | zero => simp
    | succ k =>
      have hshift : i + (k + 1) = i + 1 + k := by omega
      rw [if_neg (by omega), hshift, ih (hshift ▸ hk), List.getD_cons_succ]

/-- Settles O8: construction loads from address 0, so address `a` in range holds word `0 + a`. -/
theorem wordImageFillsInstructionStore : Obligations.WordImageFillsInstructionStore := by
  intro params ws a
  split
  · next ha =>
    have hload := get_loadWordsFrom ws (i := 0) (k := a.toNat) (by rwa [Nat.zero_add])
    rw [Nat.zero_add] at hload
    exact (imemRead_of_lt _ ha).trans hload
  · next ha => exact imemRead_of_le _ (Nat.le_of_not_lt ha)

/-! ### What an instruction and a step leave of the stores -/

/-- Every instruction answers a next state, keeps the instruction store, and, but for STX and STY, the data store. -/
theorem exec_keeps_stores (i : Instr) (s : State) :
    ∃ t, exec i s = .next t ∧ t.imem = s.imem ∧ (i.mnemonic ∉ [Mnemonic.STX, .STY] → t.dmem = s.dmem) := by
  cases i with
  | add => exact ⟨_, execAdd_eq s, rfl, fun _ => rfl⟩
  | sub => exact ⟨_, execSub_eq s, rfl, fun _ => rfl⟩
  | and => exact ⟨_, execAnd_eq s, rfl, fun _ => rfl⟩
  | or => exact ⟨_, execOr_eq s, rfl, fun _ => rfl⟩
  | xor => exact ⟨_, execXor_eq s, rfl, fun _ => rfl⟩
  | not => exact ⟨_, execNot_eq s, rfl, fun _ => rfl⟩
  | ldxI imm => exact ⟨_, execLdxI_eq s imm, rfl, fun _ => rfl⟩
  | ldyI imm => exact ⟨_, execLdyI_eq s imm, rfl, fun _ => rfl⟩
  | stx imm => exact ⟨_, execStx_eq s imm, dmemWrite_imem _ _ _, fun h => absurd (List.mem_cons_self ..) h⟩
  | sty imm =>
    exact ⟨_, execSty_eq s imm, dmemWrite_imem _ _ _,
      fun h => absurd (List.mem_cons_of_mem _ (List.mem_cons_self ..)) h⟩
  | jmp imm => exact ⟨_, execJmp_eq s imm, rfl, fun _ => rfl⟩
  | jic imm => exact ⟨_, execJic_eq s imm, rfl, fun _ => rfl⟩
  | jiz imm => exact ⟨_, execJiz_eq s imm, rfl, fun _ => rfl⟩
  | hlt => exact ⟨_, execHlt_eq s, rfl, fun _ => rfl⟩
  | ldxA imm => exact ⟨_, execLdxA_eq s imm, rfl, fun _ => rfl⟩
  | ldyA imm => exact ⟨_, execLdyA_eq s imm, rfl, fun _ => rfl⟩

/-- A step keeps the instruction store. -/
theorem step_imem {s t : State} (h : step s = .next t) : t.imem = s.imem := by
  obtain ⟨-, hstep⟩ | ⟨-, hstep⟩ := step_cases s
  · cases hstep.symm.trans h; rfl
  · obtain ⟨u, hexec, himem, -⟩ := exec_keeps_stores (decode (imemRead s s.pc)) (advance s)
    cases (hstep.trans hexec).symm.trans h
    exact himem

/-! ### Runs and host commands -/

section
variable {P : State → Prop} (hstep : ∀ s t, P s → step s = .next t → P t)
include hstep

/-- What every step keeps, the loop of a run keeps. -/
theorem runLoop_keeps {max fuel : Nat} {s : State} {r : RunReturn} (hs : P s) (h : runLoop max fuel s = some r) :
    P r.state := by
  induction fuel generalizing s with
  | zero => cases h
  | succ fuel ih =>
    cases hspent : budgetSpent max s with
    | true =>
      rw [runLoop_spent max fuel s hspent] at h
      cases h; exact hs
    | false =>
      cases ht : step s with
      | next t =>
        by_cases hhalt : t.status = .halted
        · rw [runLoop_halts max fuel s t hspent ht hhalt] at h
          cases h; exact hstep s t hs ht
        · rw [runLoop_goes_on max fuel s t hspent ht hhalt] at h
          exact ih (hstep s t hs ht) h
      | fault e => cases e
      | refused e => simp [runLoop, hspent, ht] at h

/-- What every step keeps, a run command keeps, if it does not depend on the run status and the cycle counter. -/
theorem runCommand_keeps (hstatus : ∀ s v, P s → P (s.setStatus v)) (hcycles : ∀ s n, P s → P (s.setCycles n))
    {params : Config.Params} {fuel max : Nat} {s : State} {r : RunReturn} (hs : P s)
    (h : runCommand params fuel max s = some r) : P r.state := by
  unfold runCommand at h
  split at h
  · cases h; exact hs
  · obtain ⟨r', hloop, rfl⟩ := Option.map_eq_some_iff.1 h
    exact hcycles _ 0 (runLoop_keeps hstep (hstatus _ _ (hcycles _ 0 hs)) hloop)

end

/-- A run command keeps the instruction store. -/
theorem runCommand_imem {params : Config.Params} {fuel max : Nat} {s : State} {r : RunReturn}
    (h : runCommand params fuel max s = some r) : r.state.imem = s.imem :=
  runCommand_keeps (P := fun t => t.imem = s.imem) (fun _ _ hs ht => (step_imem ht).trans hs)
    (fun _ _ hs => hs) (fun _ _ hs => hs) rfl h

/-- Everything a completed host command can be, with the state and the reply it gives. -/
theorem hostCommand_cases {params : Config.Params} {fuel : Nat} {command : Command} {s t : State} {reply : Reply}
    (h : hostCommand params fuel command s = .done t reply) :
    (∃ image, command = .construct image ∧ t = construct params image ∧ reply = .nothing) ∨
    (command = .reset ∧ t = resetCommand s ∧ reply = .nothing) ∨
    (∃ budget r, command = .run budget ∧ runCommand params fuel (budget.getD 0) s = some r ∧
      t = r.state ∧ reply = .ran r.cycles r.outcome) ∨
    (∃ what, command = .read what ∧ t = s ∧ reply = .value (readCommand s what)) ∨
    ∃ a v, command = .imemWrite a v ∧ params.testBuild = true ∧ t = imemWrite s a v ∧ reply = .nothing := by
  cases command with
  | construct image => cases h; exact .inl ⟨image, rfl, rfl, rfl⟩
  | reset => cases h; exact .inr (.inl ⟨rfl, rfl, rfl⟩)
  | run budget =>
    simp only [hostCommand] at h
    split at h
    · next r hr => cases h; exact .inr (.inr (.inl ⟨budget, r, rfl, hr, rfl, rfl⟩))
    · cases h
  | read what => cases h; exact .inr (.inr (.inr (.inl ⟨what, rfl, rfl, rfl⟩)))
  | imemWrite a v =>
    simp only [hostCommand] at h
    split at h
    · next hb => cases h; exact .inr (.inr (.inr (.inr ⟨a, v, rfl, hb, rfl, rfl⟩)))
    · cases h

/-- Settles O38: the instructions by the frame of `exec`, the host's commands one by one, a run by induction on its
steps. -/
theorem instructionStoreIsReadOnly : Obligations.InstructionStoreIsReadOnly := by
  constructor
  · intro i s
    obtain ⟨t, hexec, himem, -⟩ := exec_keeps_stores i s
    exact ⟨t, hexec, himem⟩
  · intro params fuel command s t reply h
    obtain ⟨image, rfl, rfl, -⟩ | ⟨rfl, rfl, -⟩ | ⟨_, r, rfl, hr, rfl, -⟩ | ⟨_, rfl, rfl, -⟩ |
      ⟨a, v, rfl, htest, rfl, -⟩ := hostCommand_cases h
    · exact .inr (.inl ⟨image, rfl, rfl⟩)
    · exact .inl rfl
    · exact .inl (runCommand_imem hr)
    · exact .inl rfl
    · exact .inr (.inr ⟨a, v, rfl, htest, rfl⟩)

/-- The data store reads zero everywhere at construction (R75). -/
@[simp] theorem dmemRead_construct (params : Config.Params) (image : Image) (a : Word) :
    dmemRead (construct params image) a = 0 := by
  obtain ha | ha := Nat.lt_or_ge a.toNat dmemWords
  · exact dmemRead_of_lt _ ha
  · exact dmemRead_of_le _ ha

/-- Settles O39: the instructions by the frame of `exec`; of the host's commands, only a construction and a run touch the
data store. -/
theorem onlyStoresChangeTheDataStore : Obligations.OnlyStoresChangeTheDataStore := by
  refine ⟨fun i s => ?_, dmemRead_construct, fun _ => rfl, fun _ _ _ => rfl, ?_⟩
  · obtain ⟨t, hexec, -, hdmem⟩ := exec_keeps_stores i s
    exact ⟨t, hexec, hdmem⟩
  · intro params fuel command s t reply h hconstruct hrun
    obtain ⟨image, hc, -⟩ | ⟨-, rfl, -⟩ | ⟨budget, _, hc, -⟩ | ⟨_, -, rfl, -⟩ |
      ⟨a, v, -, -, rfl, -⟩ := hostCommand_cases h
    · exact absurd hc (hconstruct image)
    · rfl
    · exact absurd hc (hrun budget)
    · rfl
    · exact imemWrite_dmem s a v

end Sys2Proof.Machine

/-! The execution cycle (spec/40_execution_cycle.md): what an instruction and a step add to the cycle counter (R111, R112),
and that every step answers a next state (R120). -/

namespace Sys2Proof.Machine

/-! ### The opcode of a decoded word -/

theorem toNat_opcodeField (w : Word) : (opcodeField w).toNat = w.toNat / 4096 := by
  have hlt := w.isLt
  rw [opcodeField, BitVec.extractLsb'_toNat, Nat.shiftRight_eq_div_pow]
  omega

/-- A bit of a word, as arithmetic can read it. -/
theorem getLsbD_eq_div_mod (w : Word) (k : Nat) : w.getLsbD k = decide (w.toNat / 2 ^ k % 2 = 1) := by
  rw [BitVec.getLsbD, Nat.testBit_eq_decide_div_mod_eq]

/-- The decoder selects the row whose opcode is the word's opcode field (R91, R94): in every row, the four bits it tests fix
the quotient of the word by 4096. -/
theorem opcodeOf_decode (w : Word) : opcodeOf (decode w).mnemonic = opcodeField w := by
  have hlt := w.isLt
  apply BitVec.eq_of_toNat_eq
  rw [toNat_opcodeField, decode]
  split <;>
    simp only [getLsbD_eq_div_mod, decide_eq_true_eq, decide_eq_false_iff_not, Instr.mnemonic, opcodeOf,
      BitVec.reduceToNat] at * <;>
    omega

/-! ### What an instruction and a step charge -/

@[simp] theorem jumpIf_cycles (b : Bool) (a : Word) (s : State) : (jumpIf b a s).cycles = s.cycles := by
  simp [jumpIf_eq]

@[simp] theorem storeAt_cycles (a v : Word) (s : State) : (storeAt a v s).cycles = s.cycles := by
  simp [storeAt_eq]

/-- Every instruction answers a next state: its effect, which leaves the cycle counter alone, and then its extra charge. -/
theorem exec_charges (i : Instr) (s : State) : ∃ t, exec i s = .next (charge i t) ∧ t.cycles = s.cycles := by
  cases i with
  | add | sub | and | or | xor | not | ldxI | ldyI | jmp | hlt | ldxA | ldyA => exact ⟨_, rfl, rfl⟩
  | stx | sty => exact ⟨_, rfl, storeAt_cycles ..⟩
  | jic | jiz => exact ⟨_, rfl, jumpIf_cycles ..⟩

/-- In a run, a step charges the fetch and the extra cost of the instruction it runs (R111, R112). -/
theorem step_cycles {s : State} (hs : s.status = .running) :
    ∃ t, step s = .next t ∧ t.cycles = s.cycles + (fetchCost + extraCost (decode (imemRead s s.pc))) := by
  obtain ⟨hnot, -⟩ | ⟨-, hstep⟩ := step_cases s
  · exact absurd hs hnot
  · obtain ⟨t, hexec, hcycles⟩ := exec_charges (decode (imemRead s s.pc)) (advance s)
    refine ⟨_, hstep.trans hexec, ?_⟩
    simp [hcycles, fetchCost, Nat.add_assoc]

/-- The total costs of R112, by opcode. -/
def totalCosts : List Nat := [2, 2, 2, 2, 2, 2, 1, 1, 5, 5, 2, 2, 2, 1, 5, 5]

/-- The cost table agrees with the instructions row by row. -/
theorem totalCosts_getD_opcodeOf (i : Instr) :
    totalCosts.getD (opcodeOf i.mnemonic).toNat 0 = fetchCost + extraCost i := by
  cases i <;> rfl

/-- Settles O29: the fetched word's opcode field is its decoded instruction's row of the table, and a step charges that
instruction's cost. -/
theorem eachStepChargesTheTablesCost : Obligations.EachStepChargesTheTablesCost := by
  intro s hs
  obtain ⟨t, hstep, hcycles⟩ := step_cycles hs
  refine ⟨t, hstep, ?_⟩
  rw [hcycles, ← totalCosts_getD_opcodeOf, opcodeOf_decode, toNat_opcodeField, totalCosts]

/-! ### No step stops -/

/-- Every step answers a next state, inside a run and outside one. -/
theorem step_answers_next (s : State) : ∃ t, step s = .next t := by
  obtain ⟨-, hstep⟩ | ⟨-, hstep⟩ := step_cases s
  · exact ⟨s, hstep⟩
  · obtain ⟨t, hexec, -⟩ := exec_charges (decode (imemRead s s.pc)) (advance s)
    exact ⟨_, hstep.trans hexec⟩

/-- Steps that all answer a next state never end otherwise, however many there are (R120). -/
theorem State.neverStops (s : State) : s.NeverStops := by
  intro k
  induction k generalizing s with
  | zero => exact ⟨s, core_run_zero s⟩
  | succ k ih =>
    obtain ⟨t, hstep⟩ := step_answers_next s
    rw [core_run_succ k s t hstep]
    exact ih t

/-- Settles O30: every instruction answers a next state, and so does every number of steps, by induction. -/
theorem noStepEverStops : Obligations.NoStepEverStops := by
  refine ⟨fun i s => ?_, State.neverStops⟩
  obtain ⟨t, hexec, -⟩ := exec_charges i s
  exact ⟨_, hexec⟩

end Sys2Proof.Machine

/-! The logical ALU instructions (spec/41_alu.md R144 to R147): the rows of the encoding that ignore their operand, the cost
of an ALU step, and the next state of each instruction. -/

namespace Sys2Proof.Machine

/-! ### Rows that ignore their operand -/

/-- The mask of every row of the opcode table keeps the four bits the decoder tests. -/
theorem getLsbD_and_mask (w : Word) {k : Nat} (hlow : 12 ≤ k) (hhigh : k < 16) :
    (w &&& 0xF000).getLsbD k = w.getLsbD k := by
  have hmask : (0xF000#16).getLsbD k = true := by interval_cases k <;> rfl
  simp [hmask]

/-- Where the masked word selects a row that ignores its operand, the whole word selects it (R91, R93). -/
theorem decode_eq_of_decode_and_mask {w : Word} {i : Instr} (hi : i.operand = none)
    (h : decode (w &&& 0xF000) = i) : decode w = i := by
  subst h
  simp only [decode, getLsbD_and_mask, Nat.reduceLeDiff, Nat.reduceLT] at hi ⊢
  split at hi <;> simp only [Instr.operand, reduceCtorEq] at hi ⊢

/-- An ALU instruction's row: a word that agrees with its encoding in the opcode field decodes to it. -/
theorem decode_of_and_mask_eq_encode {i : Instr} (hi : i ∈ aluInstrs) {w : Word} (h : w &&& 0xF000 = encode i) :
    decode w = i := by
  have hrow : ∀ j ∈ aluInstrs, j.operand = none ∧ decode (encode j) = j := by decide
  obtain ⟨hoperand, hdecode⟩ := hrow i hi
  exact decode_eq_of_decode_and_mask hoperand (h ▸ hdecode)

/-- In a run, fetching an ALU instruction's row costs 2 cycles, one of them the fetch (R111, R112). -/
theorem step_cycles_of_aluInstr {i : Instr} (hi : i ∈ aluInstrs) {s : State} (hs : s.status = .running)
    (h : imemRead s s.pc &&& 0xF000 = encode i) : ∃ t, step s = .next t ∧ t.cycles = s.cycles + 2 := by
  have hcost : ∀ j ∈ aluInstrs, fetchCost + extraCost j = 2 := by decide
  obtain ⟨t, hstep, hcycles⟩ := step_cycles hs
  rw [decode_of_and_mask_eq_encode hi h, hcost i hi] at hcycles
  exact ⟨t, hstep, hcycles⟩

/-! ### The next state of a logical instruction -/

/-- The write of a result and the charge, as one update of the state; `Q` is what the zero flag says in terms of the
operands (R140). -/
theorem setX_setZ_setCycles_eq (s : State) (r : Word) (n : Nat) {Q : Prop} [Decidable Q] (hQ : r = 0 ↔ Q) :
    ((s.setX r).setZ (r == 0)).setCycles n = { s with x := r, z := decide Q, cycles := n } := by
  rw [← decide_eq_decide.2 hQ]; rfl

/-- The complement of the model, `v ^ 0xFFFF`, is the bitwise one (R8). -/
theorem complement_eq_not (v : Word) : complement v = ~~~v := BitVec.xor_allOnes

theorem complement_eq_zero_iff (v : Word) : complement v = 0 ↔ v = 0xFFFF := BitVec.xor_eq_zero_iff

/-- Settles O13: Z is the zero test of the conjunction itself. -/
theorem andWritesConjunctionAndZero : Obligations.AndWritesConjunctionAndZero :=
  have hmem : Instr.and ∈ aluInstrs := by decide
  ⟨fun _ => decode_of_and_mask_eq_encode hmem,
    fun s => (execAnd_eq s).trans (congrArg _ (setX_setZ_setCycles_eq s _ _ Iff.rfl)),
    fun _ => step_cycles_of_aluInstr hmem⟩

/-- Settles O14: a disjunction is 0 only when both words are. -/
theorem orWritesDisjunctionAndZero : Obligations.OrWritesDisjunctionAndZero :=
  have hmem : Instr.or ∈ aluInstrs := by decide
  ⟨fun _ => decode_of_and_mask_eq_encode hmem,
    fun s => (execOr_eq s).trans (congrArg _ (setX_setZ_setCycles_eq s _ _ BitVec.or_eq_zero_iff)),
    fun _ => step_cycles_of_aluInstr hmem⟩

/-- Settles O15: an exclusive or is 0 exactly when the words are equal. -/
theorem xorWritesDifferenceBitsAndZero : Obligations.XorWritesDifferenceBitsAndZero :=
  have hmem : Instr.xor ∈ aluInstrs := by decide
  ⟨fun _ => decode_of_and_mask_eq_encode hmem,
    fun s => (execXor_eq s).trans (congrArg _ (setX_setZ_setCycles_eq s _ _ BitVec.xor_eq_zero_iff)),
    fun _ => step_cycles_of_aluInstr hmem⟩

/-- Settles O16: a complement is 0 exactly when the word was 0xFFFF. -/
theorem notWritesComplementAndZero : Obligations.NotWritesComplementAndZero := by
  have hmem : Instr.not ∈ aluInstrs := by decide
  refine ⟨fun _ => decode_of_and_mask_eq_encode hmem, fun s => ?_, fun _ => step_cycles_of_aluInstr hmem⟩
  rw [← complement_eq_not]
  exact (execNot_eq s).trans (congrArg _ (setX_setZ_setCycles_eq s _ _ (complement_eq_zero_iff s.x)))

end Sys2Proof.Machine

/-! The load-immediate instructions (spec/42_load_immediate.md R150, R151): the rows of the encoding that use their operand,
the cost of a step by its row, and the next state of each instruction. -/

namespace Sys2Proof

/-- The instruction with its operand replaced, where it has one (R93). -/
def Instr.withOperand (i : Instr) (a : Operand) : Instr :=
  match i with
  | .ldxI _ => .ldxI a
  | .ldyI _ => .ldyI a
  | .stx _ => .stx a
  | .sty _ => .sty a
  | .jmp _ => .jmp a
  | .jic _ => .jic a
  | .jiz _ => .jiz a
  | .ldxA _ => .ldxA a
  | .ldyA _ => .ldyA a
  | i => i

end Sys2Proof

namespace Sys2Proof.Machine

/-! ### Rows that use their operand -/

/-- The masked word selects the row, the low bits of the whole word fill in the operand (R91). -/
theorem decode_eq_withOperand (w : Word) :
    decode w = (decode (w &&& 0xF000)).withOperand (operandField w) := by
  simp only [decode, getLsbD_and_mask, Nat.reduceLeDiff, Nat.reduceLT]
  split <;> rfl

/-- The cost of an instruction is that of its row: the operand does not enter it (R112). -/
@[simp] theorem extraCost_withOperand (i : Instr) (a : Operand) : extraCost (i.withOperand a) = extraCost i := by
  cases i <;> rfl

/-- In a run, a step charges the fetch and the extra cost of the row `m` that the fetched word selects. -/
theorem step_cycles_of_row {s : State} {m : Word} (hs : s.status = .running) (h : imemRead s s.pc &&& 0xF000 = m) :
    ∃ t, step s = .next t ∧ t.cycles = s.cycles + (fetchCost + extraCost (decode m)) := by
  obtain ⟨t, hstep, hcycles⟩ := step_cycles hs
  rw [decode_eq_withOperand, extraCost_withOperand, h] at hcycles
  exact ⟨t, hstep, hcycles⟩

/-! ### The next state of a load-immediate instruction -/

/-- The zero extension keeps the value of the operand (R8, R92). -/
theorem zext16_eq_ofNat_toNat (imm : Operand) : zext16 imm = BitVec.ofNat 16 imm.toNat :=
  (BitVec.ofNat_toNat 16 imm).symm

/-- Settles O17: row 0x6 with the word's own operand, the write of X alone, and no charge beyond the fetch. -/
theorem loadXImmediateWritesOperand : Obligations.LoadXImmediateWritesOperand := by
  refine ⟨fun w hw => ?_, fun imm s => ?_, fun s hs h => step_cycles_of_row hs h⟩
  · rw [decode_eq_withOperand, hw]; rfl
  · rw [← zext16_eq_ofNat_toNat]; exact execLdxI_eq s imm

/-- Settles O18: row 0x7 with the word's own operand, the write of Y alone, and no charge beyond the fetch. -/
theorem loadYImmediateWritesOperand : Obligations.LoadYImmediateWritesOperand := by
  refine ⟨fun w hw => ?_, fun imm s => ?_, fun s hs h => step_cycles_of_row hs h⟩
  · rw [decode_eq_withOperand, hw]; rfl
  · rw [← zext16_eq_ofNat_toNat]; exact execLdyI_eq s imm

end Sys2Proof.Machine

/-! The store instructions (spec/43_store.md R160, R161): what a store through P leaves in P, in the data store and in the
rest of the state. STX and STY are the same store of two different registers, so their effect is proved once. -/

namespace Sys2Proof.Machine

/-- The zero extension keeps the value of the operand as a data address (R192). -/
@[simp] theorem toNat_dataAddress (imm : Operand) : (dataAddress imm).toNat = imm.toNat :=
  BitVec.toNat_setWidth_of_le (by decide)

section
variable (s : State)

@[simp] theorem storeAt_p (a v : Word) : (storeAt a v s).p = a := by
  rw [storeAt_eq]; rfl

/-- The cells after a store through P: the addressed one takes the value where it is in range. -/
theorem get_storeAt_dmem (a v : Word) (b : Nat) :
    Memory.get (storeAt a v s).dmem b = if b = a.toNat ∧ b < dmemWords then v else Memory.get s.dmem b := by
  rw [storeAt_eq, State.setDmem_dmem]
  by_cases hb : b = a.toNat
  · subst hb
    split <;> simp [Memory.get_set, *]
  · split <;> simp [Memory.get_set, hb]

/-- Out of range a store through P sets P and does nothing else (R65). -/
theorem storeAt_of_le {a : Word} (ha : dmemWords ≤ a.toNat) (v : Word) : storeAt a v s = s.setP a :=
  dmemWrite_of_le _ ha v

/-- A store through P, with the charge of an instruction, touches P, the data store and the cycle counter alone. -/
theorem charge_storeAt_frame (i : Instr) (a v : Word) :
    { charge i (storeAt a v s) with p := s.p, dmem := s.dmem, cycles := s.cycles } = s := by
  rw [storeAt_eq]; rfl

end

/-- The effect of an instruction that stores `v` through P at the extra cost of a store. -/
theorem exec_of_storeAt {i : Instr} {imm : Operand} {v : Word} {s : State}
    (hexec : exec i s = .next (charge i (storeAt (dataAddress imm) v s))) (hcost : extraCost i = 4) :
    ∃ t, exec i s = .next t ∧
      t.p = dataAddress imm ∧ (dataAddress imm).toNat = imm.toNat ∧
      (∀ a : Nat, Memory.get t.dmem a =
        if a = (dataAddress imm).toNat ∧ a < 192 then v else Memory.get s.dmem a) ∧
      (192 ≤ imm.toNat → t.dmem = s.dmem ∧ dmemRead t (dataAddress imm) = 0) ∧
      { t with p := s.p, dmem := s.dmem, cycles := s.cycles } = s ∧ t.cycles = s.cycles + 4 := by
  refine ⟨_, hexec, storeAt_p .., toNat_dataAddress imm, get_storeAt_dmem s _ v, fun hout => ?_,
    charge_storeAt_frame .., ?_⟩
  · have hrange : dmemWords ≤ (dataAddress imm).toNat := by rwa [toNat_dataAddress]
    exact ⟨by rw [storeAt_of_le s hrange]; rfl, dmemRead_of_le _ hrange⟩
  · simp [hcost]

/-- Settles O19: row 0x8 with the word's own operand, the store of X, and the cost of its row. -/
theorem storeXWritesPointerAndCell : Obligations.StoreXWritesPointerAndCell := by
  refine ⟨fun w hw => ?_, fun _ _ => exec_of_storeAt rfl rfl, fun s hs h => step_cycles_of_row hs h⟩
  rw [decode_eq_withOperand, hw]; rfl

/-- Settles O20: row 0x9 with the word's own operand, the store of Y, and the cost of its row. -/
theorem storeYWritesPointerAndCell : Obligations.StoreYWritesPointerAndCell := by
  refine ⟨fun w hw => ?_, fun _ _ => exec_of_storeAt rfl rfl, fun s hs h => step_cycles_of_row hs h⟩
  rw [decode_eq_withOperand, hw]; rfl

end Sys2Proof.Machine

/-! The control-transfer instructions (spec/44_branch.md R170 to R173): the instruction a step runs by the row of the word
it fetches, and the program counter a jump leaves. JIC and JIZ are the same conditional jump on two different flags, so
their target is proved once. -/

namespace Sys2Proof.Machine

/-! ### The instruction of a row -/

/-- A word of the row `m` decodes to the row's instruction with the word's own operand (R91, R94). -/
theorem decode_of_row {w m : Word} (h : w &&& 0xF000 = m) : decode w = (decode m).withOperand (operandField w) := by
  rw [decode_eq_withOperand, h]

/-- In a run, a step that fetches a word of the row `m` runs the row's instruction on the advanced state (R111). -/
theorem step_of_row {s : State} {m : Word} (hs : s.status = .running) (h : imemRead s s.pc &&& 0xF000 = m) :
    step s = exec ((decode m).withOperand (operandField (imemRead s s.pc))) (advance s) := by
  obtain ⟨hnot, -⟩ | ⟨-, hstep⟩ := step_cases s
  · exact absurd hs hnot
  · rw [hstep, decode_of_row h]

/-! ### The program counter after a jump -/

/-- The absolute target of a word is its low 12 bits (R92, R173). -/
@[simp] theorem toNat_jumpTarget_operandField (w : Word) : (jumpTarget (operandField w)).toNat = w.toNat % 4096 := by
  rw [jumpTarget, zext16, BitVec.toNat_setWidth_of_le (by decide), operandField, BitVec.extractLsb'_toNat,
    Nat.shiftRight_zero]

/-- PC after a conditional jump on the advanced state: the target if taken, else the advanced value (R37, D3). -/
theorem toNat_pc_jumpIf_advance (b : Bool) (w : Word) (s : State) :
    (jumpIf b (jumpTarget (operandField w)) (advance s)).pc.toNat =
      if b = true then w.toNat % 4096 else (s.pc.toNat + 1) % 65536 := by
  rw [jumpIf_eq, State.setPc_pc]
  split
  case isTrue => exact toNat_jumpTarget_operandField w
  case isFalse => exact BitVec.toNat_add s.pc 1

/-- A step that jumps if `b` to the operand of `w`, at the extra cost of a jump. -/
theorem step_of_jumpIf {i : Instr} {b : Bool} {w : Word} {s : State}
    (hstep : step s = .next (charge i (jumpIf b (jumpTarget (operandField w)) (advance s)))) (hcost : extraCost i = 1) :
    ∃ t, step s = .next t ∧ t.cycles = s.cycles + 2 ∧
      t.pc.toNat = if b = true then w.toNat % 4096 else (s.pc.toNat + 1) % 65536 :=
  ⟨_, hstep, by simp [hcost], toNat_pc_jumpIf_advance b w s⟩

/-- Settles O21: row 0xA with the word's own operand, and a step whose PC is the target in place of the advanced one. -/
theorem jumpSetsProgramCounter : Obligations.JumpSetsProgramCounter := by
  refine ⟨fun w hw => decode_of_row hw, fun imm s => ?_, fun s hs h => ?_⟩
  · rw [← zext16_eq_ofNat_toNat]; exact execJmp_eq s imm
  · exact ⟨_, step_of_row hs h, toNat_jumpTarget_operandField _, rfl⟩

/-- Settles O22: row 0xB with the word's own operand, and the conditional jump on C. -/
theorem jumpIfCarryTestsCarry : Obligations.JumpIfCarryTestsCarry := by
  refine ⟨fun w hw => decode_of_row hw, fun imm s => ?_, fun s hs h => step_of_jumpIf (step_of_row hs h) rfl⟩
  rw [← zext16_eq_ofNat_toNat]; exact execJic_eq s imm

/-- Settles O23: row 0xC with the word's own operand, and the conditional jump on Z. -/
theorem jumpIfZeroTestsZero : Obligations.JumpIfZeroTestsZero := by
  refine ⟨fun w hw => decode_of_row hw, fun imm s => ?_, fun s hs h => step_of_jumpIf (step_of_row hs h) rfl⟩
  rw [← zext16_eq_ofNat_toNat]; exact execJiz_eq s imm

end Sys2Proof.Machine

/-! The load-from-memory instructions (spec/46_load_memory.md R190, R191): the word read through P, the next state of each
instruction, and what any instruction leaves in Y. -/

namespace Sys2Proof.Machine

/-- The word a load reads through its operand: the cell at it, 0x0000 out of range (R64, R192). -/
theorem dmemRead_dataAddress (s : State) (imm : Operand) :
    dmemRead s (dataAddress imm) = if imm.toNat < 192 then Memory.get s.dmem imm.toNat else 0 := by
  rw [dmemRead, toNat_dataAddress]; rfl

/-- Settles O25: row 0xE with the word's own operand, the read of X through the new P, and the cost of its row. -/
theorem loadXMemoryReadsCell : Obligations.LoadXMemoryReadsCell := by
  refine ⟨fun w hw => decode_of_row hw, fun imm s => ?_, fun s hs h => step_cycles_of_row hs h⟩
  rw [← zext16_eq_ofNat_toNat, ← dmemRead_dataAddress]; exact execLdxA_eq s imm

/-- A store through P keeps Y. -/
@[simp] theorem storeAt_y (s : State) (a v : Word) : (storeAt a v s).y = s.y := by
  simp [storeAt_eq]

/-- A conditional jump keeps Y. -/
@[simp] theorem jumpIf_y (b : Bool) (a : Word) (s : State) : (jumpIf b a s).y = s.y := by
  simp [jumpIf_eq]

/-- Everything an instruction can leave in Y: the old value, the operand of LDY_I, or the word LDY_A reads (R32). -/
theorem exec_y_cases (i : Instr) (s : State) :
    ∃ t, exec i s = .next t ∧
      (t.y = s.y ∨ (∃ imm, i = .ldyI imm ∧ t.y = immediateValue imm) ∨
        ∃ imm, i = .ldyA imm ∧ t.y = dmemRead s (dataAddress imm)) := by
  cases i with
  | add | sub | and | or | xor | not | ldxI | jmp | hlt | ldxA => exact ⟨_, rfl, .inl rfl⟩
  | stx | sty => exact ⟨_, rfl, .inl (storeAt_y ..)⟩
  | jic | jiz => exact ⟨_, rfl, .inl (jumpIf_y ..)⟩
  | ldyI imm => exact ⟨_, rfl, .inr (.inl ⟨imm, rfl, rfl⟩)⟩
  | ldyA imm => exact ⟨_, rfl, .inr (.inr ⟨imm, rfl, rfl⟩)⟩

/-- Settles O26: row 0xF with the word's own operand, the read of Y through the new P, and the cost of its row; any other
instruction leaves in Y the old value or a zero-extended operand, which has 12 bits. -/
theorem loadYMemoryReadsCell : Obligations.LoadYMemoryReadsCell := by
  refine ⟨fun w hw => decode_of_row hw, fun imm s => ?_, fun s hs h => step_cycles_of_row hs h, fun i s hi hy => ?_⟩
  · rw [← zext16_eq_ofNat_toNat, ← dmemRead_dataAddress]; exact execLdyA_eq s imm
  · obtain ⟨t, hexec, hkeep | ⟨imm, -, himm⟩ | ⟨imm, rfl, -⟩⟩ := exec_y_cases i s
    · exact ⟨t, hexec, hkeep ▸ hy⟩
    · exact ⟨t, hexec, himm ▸ zext16_le imm⟩
    · exact absurd rfl hi

end Sys2Proof.Machine

/-! The encoding (spec/30_encoding.md): the two fields of a word make the word, the decoder and the encoder on the two
fields, the opcode table, and the written form. -/

namespace Sys2Proof

/-! ### The two fields of a word -/

@[simp] theorem opcodeField_encodeFields (op : Opcode) (imm : Operand) : opcodeField (encodeFields op imm) = op :=
  (Laws.EncodingFields.fields_of_encodeFields op imm).1

@[simp] theorem operandField_encodeFields (op : Opcode) (imm : Operand) : operandField (encodeFields op imm) = imm :=
  (Laws.EncodingFields.fields_of_encodeFields op imm).2

/-- A word is its two fields (R91). -/
@[simp] theorem encodeFields_opcodeField_operandField (w : Word) :
    encodeFields (opcodeField w) (operandField w) = w := by
  apply BitVec.eq_of_getLsbD_eq
  intro k hk
  obtain hlow | hhigh := Nat.lt_or_ge k 12
  · simp [encodeFields, operandField, hlow, hk]
  · have hsum : 12 + (k - 12) = k := by omega
    have hbit : k - 12 < 4 := by omega
    simp [encodeFields, opcodeField, operandField, hhigh.not_gt, hk, hsum, hbit]

/-- The mask of the opcode table clears the operand field (R91). -/
theorem and_mask_eq_encodeFields (w : Word) : w &&& 0xF000 = encodeFields (opcodeField w) 0 := by
  apply BitVec.eq_of_getLsbD_eq
  intro k hk
  obtain hlow | hhigh := Nat.lt_or_ge k 12
  · have hmask : (0xF000#16).getLsbD k = false := by interval_cases k <;> rfl
    simp [encodeFields, hlow, hmask]
  · have hsum : 12 + (k - 12) = k := by omega
    have hbit : k - 12 < 4 := by omega
    rw [Machine.getLsbD_and_mask w hhigh hk]
    simp [encodeFields, opcodeField, hhigh.not_gt, hk, hsum, hbit]

/-! ### Decoding an encoded instruction -/

/-- The opcode selects the instruction, the operand fills it in. -/
theorem decode_encodeFields (op : Opcode) (imm : Operand) :
    decode (encodeFields op imm) = (decode (encodeFields op 0)).withOperand imm := by
  rw [Machine.decode_eq_withOperand, and_mask_eq_encodeFields, opcodeField_encodeFields, operandField_encodeFields]

/-- The opcode of an instruction decodes to the instruction, whatever operand stands beside it. -/
theorem decode_encodeFields_opcodeOf (i : Instr) (imm : Operand) :
    decode (encodeFields (opcodeOf i.mnemonic) imm) = i.withOperand imm := by
  have hrow : decode (encodeFields (opcodeOf i.mnemonic) 0) = i.withOperand 0 := by
    cases i <;> rw [Instr.mnemonic] <;> rfl
  rw [decode_encodeFields, hrow]
  cases i <;> rfl

theorem Instr.withOperand_operand (i : Instr) : i.withOperand (i.operand.getD 0) = i := by
  cases i <;> rfl

/-- Decoding undoes encoding. -/
@[simp] theorem decode_encode (i : Instr) : decode (encode i) = i := by
  rw [encode, decode_encodeFields_opcodeOf, Instr.withOperand_operand]

/-- Every instruction is well-formed: an operand stands where one is taken, and has 12 bits by its type (R96). -/
theorem Instr.wellFormed_eq_true (i : Instr) : i.wellFormed = true := by
  cases i with
  | add | sub | and | or | xor | not | hlt => rfl
  | ldxI imm | ldyI imm | stx imm | sty imm | jmp imm | jic imm | jiz imm | ldxA imm | ldyA imm =>
    exact decide_eq_true imm.isLt

/-- Settles O1: decoding undoes encoding, and every instruction is well-formed. -/
theorem decodeOfEncodeIsIdentity : Obligations.DecodeOfEncodeIsIdentity :=
  ⟨fun i _ => decode_encode i, Instr.wellFormed_eq_true⟩

/-! ### Encoding a decoded word -/

/-- The operand of a decoded word is its operand field, where the row takes one (R92, R93). -/
theorem operand_decode (w : Word) :
    (decode w).operand = if (decode w).mnemonic.takesOperand then some (operandField w) else none := by
  rw [decode]; split <;> rfl

/-- The rows that stand alone are opcodes 0 to 5 and 13 (R94, R96). -/
theorem takesOperand_eq_false_iff (m : Mnemonic) :
    m.takesOperand = false ↔ (opcodeOf m).toNat < 6 ∨ (opcodeOf m).toNat = 13 := by
  cases m <;> decide

/-- Encoding a decoded word keeps the word, its operand field cleared where the row takes no operand. -/
theorem encode_decode (w : Word) :
    encode (decode w) = if (decode w).mnemonic.takesOperand then w else w &&& 0xF000 := by
  rw [encode, Machine.opcodeOf_decode, operand_decode]
  split
  · exact encodeFields_opcodeField_operandField w
  · exact (and_mask_eq_encodeFields w).symm

/-- Settles O2: the rows that ignore their operand, as ranges of words. -/
theorem encodeOfDecodeKeepsUsedBits : Obligations.EncodeOfDecodeKeepsUsedBits := by
  intro w
  have halone : (decode w).mnemonic.takesOperand = false ↔
      w.toNat < 0x6000 ∨ (0xD000 ≤ w.toNat ∧ w.toNat < 0xE000) := by
    rw [takesOperand_eq_false_iff, Machine.opcodeOf_decode, Machine.toNat_opcodeField]
    omega
  rw [encode_decode]
  by_cases h : (decode w).mnemonic.takesOperand = false
  · rw [if_pos (halone.1 h), if_neg (Bool.eq_false_iff.1 h)]
  · rw [if_neg (mt halone.2 h), if_pos (Bool.of_not_eq_false h)]

/-! ### The opcode table -/

/-- Every row of the table has the mask of the opcode field and the pattern of its mnemonic's opcode. -/
theorem opcodeRows_mask_pattern :
    ∀ r ∈ opcodeRows, r.mask = 0xF000 ∧ r.pattern = encodeFields (opcodeOf r.mnemonic) 0 := by
  decide

/-- A word selects a row of the table exactly when its opcode field is the opcode of the row's mnemonic (R91). -/
theorem selects_row_eq {r : OpcodeRow} (hr : r ∈ opcodeRows) (w : Word) :
    (w &&& r.mask == r.pattern) = (opcodeOf r.mnemonic == opcodeField w) := by
  obtain ⟨hmask, hpattern⟩ := opcodeRows_mask_pattern r hr
  rw [hmask, hpattern, and_mask_eq_encodeFields, Bool.eq_iff_iff, beq_iff_eq, beq_iff_eq]
  constructor
  · intro h
    simpa using (congrArg opcodeField h).symm
  · intro h
    rw [h]

/-- Each opcode has one row. -/
theorem map_mnemonic_filter_opcodeRows (m : Mnemonic) :
    (opcodeRows.filter fun r => opcodeOf r.mnemonic == opcodeOf m).map (fun r => r.mnemonic) = [m] := by
  cases m <;> rfl

theorem toNat_operandField (w : Word) : (operandField w).toNat = w.toNat % 4096 := by
  rw [operandField, BitVec.extractLsb'_toNat, Nat.shiftRight_zero]

/-- Settles O3: the rows a word selects are those of the opcode of its decoded mnemonic, of which there is one. -/
theorem everyWordSelectsExactlyOneRow : Obligations.EveryWordSelectsExactlyOneRow := by
  intro w
  refine ⟨?_, fun a ha => ?_, ?_⟩
  · rw [List.filter_congr fun r hr => selects_row_eq hr w, ← Machine.opcodeOf_decode]
    exact map_mnemonic_filter_opcodeRows _
  · rw [operand_decode] at ha
    split at ha
    · cases ha; exact toNat_operandField w
    · cases ha
  · rw [Machine.opcodeOf_decode, Machine.toNat_opcodeField]

/-- Settles O4: each word evaluates to its instruction. -/
theorem writtenOutWordsDecode : Obligations.WrittenOutWordsDecode := by
  unfold Obligations.WrittenOutWordsDecode
  decide

/-! ### The written form -/

/-- The word made of a mnemonic's opcode and an operand decodes to that mnemonic. -/
theorem mnemonic_decode_encodeFields (m : Mnemonic) (imm : Operand) :
    (decode (encodeFields (opcodeOf m) imm)).mnemonic = m := by
  rw [decode_encodeFields]
  cases m <;> rfl

theorem assemble_of_wellFormed {a : Written} (h : a.wellFormed = true) :
    assemble a = some (decode (encodeFields (opcodeOf a.mnemonic) (BitVec.ofNat 12 (a.operand.getD 0)))) := if_pos h

theorem assemble_of_not_wellFormed {a : Written} (h : a.wellFormed = false) : assemble a = none :=
  if_neg (Bool.eq_false_iff.1 h)

/-- The operand of a well-formed written form: none where the mnemonic stands alone, else a 12-bit value. -/
theorem Written.operand_of_wellFormed {a : Written} (h : a.wellFormed = true) :
    a.operand =
      if a.mnemonic.takesOperand then some (BitVec.ofNat 12 (a.operand.getD 0)).toNat else none := by
  obtain ⟨m, operand⟩ := a
  cases operand with
  | none =>
    have hm : m.takesOperand = false := by simpa [wellFormed] using h
    simp [hm]
  | some n =>
    obtain ⟨hm, hn⟩ : m.takesOperand = true ∧ n < 4096 := by simpa [wellFormed] using h
    simp [hm, Nat.mod_eq_of_lt hn]

/-- The instruction a well-formed written form stands for is written that way. -/
theorem written_decode_encodeFields {a : Written} (h : a.wellFormed = true) :
    (decode (encodeFields (opcodeOf a.mnemonic) (BitVec.ofNat 12 (a.operand.getD 0)))).written = a := by
  rw [Instr.written, operand_decode, mnemonic_decode_encodeFields, operandField_encodeFields,
    apply_ite (Option.map BitVec.toNat)]
  exact congrArg (Written.mk a.mnemonic) (Written.operand_of_wellFormed h).symm

/-- An instruction's written form assembles to it. -/
theorem assemble_written (i : Instr) : assemble i.written = some i := by
  have himm : BitVec.ofNat 12 (i.written.operand.getD 0) = i.operand.getD 0 := by
    rw [Instr.written]
    cases i.operand with
    | none => rfl
    | some a => exact (BitVec.ofNat_toNat 12 a).trans (BitVec.setWidth_eq a)
  rw [assemble_of_wellFormed i.wellFormed_eq_true, himm]
  exact congrArg some (decode_encode i)

/-- Settles O5: assembly and the written form undo each other on what is well-formed; an operand of 4096 or more is not. -/
theorem writtenFormsStandForInstructions : Obligations.WrittenFormsStandForInstructions := by
  refine ⟨fun a h => ⟨_, assemble_of_wellFormed h, written_decode_encodeFields h⟩,
    fun a h => assemble_of_not_wellFormed h, assemble_written, fun m n hn => assemble_of_not_wellFormed ?_⟩
  simp [Written.wellFormed, hn]

end Sys2Proof

/-! What each instruction leaves of each register, flag and the status, and which of them it does not read
(spec/10_state.md): the frame of `exec` field by field, then the statements that follow from it. -/

namespace Sys2Proof.Machine

/-! ### What a store through P and a conditional jump keep -/

section
variable (s : State) (a v : Word) (b : Bool)

@[simp] theorem storeAt_pc : (storeAt a v s).pc = s.pc := by simp [storeAt_eq]

@[simp] theorem storeAt_x : (storeAt a v s).x = s.x := by simp [storeAt_eq]

@[simp] theorem storeAt_c : (storeAt a v s).c = s.c := by simp [storeAt_eq]

@[simp] theorem storeAt_status : (storeAt a v s).status = s.status := by simp [storeAt_eq]

@[simp] theorem jumpIf_x : (jumpIf b a s).x = s.x := by simp [jumpIf_eq]

@[simp] theorem jumpIf_p : (jumpIf b a s).p = s.p := by simp [jumpIf_eq]

@[simp] theorem jumpIf_c : (jumpIf b a s).c = s.c := by simp [jumpIf_eq]

@[simp] theorem jumpIf_status : (jumpIf b a s).status = s.status := by simp [jumpIf_eq]

/-- A store through P does not look at C. -/
theorem storeAt_setC (c : Bool) : storeAt a v (s.setC c) = (storeAt a v s).setC c := by
  rw [storeAt_eq, storeAt_eq]; rfl

/-- A store through P looks at Y only for the value it is given. -/
theorem storeAt_setY (y : Word) : storeAt a v (s.setY y) = (storeAt a v s).setY y := by
  rw [storeAt_eq, storeAt_eq]; rfl

/-- A store through P does not look at the old P, and leaves its own address there. -/
theorem storeAt_setP (p : Word) : storeAt a v (s.setP p) = (storeAt a v s).setP a := by
  rw [storeAt_eq, storeAt_eq]; rfl

/-- A conditional jump does not look at C but for the condition it is given. -/
theorem jumpIf_setC (c : Bool) : jumpIf b a (s.setC c) = (jumpIf b a s).setC c := by
  rw [jumpIf_eq, jumpIf_eq]; rfl

theorem jumpIf_setY (y : Word) : jumpIf b a (s.setY y) = (jumpIf b a s).setY y := by
  rw [jumpIf_eq, jumpIf_eq]; rfl

theorem jumpIf_setP (p : Word) : jumpIf b a (s.setP p) = (jumpIf b a s).setP p := by
  rw [jumpIf_eq, jumpIf_eq]; rfl

end

/-- Every instruction answers a next state (R120). -/
theorem exec_answers_next (i : Instr) (s : State) : ∃ t, exec i s = .next t := noStepEverStops.1 i s

/-- In a run, a step is the decoded instruction on the advanced state (R111). -/
theorem step_running {s : State} (hs : s.status = .running) :
    step s = exec (decode (imemRead s s.pc)) (advance s) := by
  obtain ⟨hnot, -⟩ | ⟨-, hstep⟩ := step_cases s
  · exact absurd hs hnot
  · exact hstep

/-! ### The address register P -/

/-- P after an instruction is the operand of the four memory instructions, and else the old P (R34, R192). -/
def pointerAfter (i : Instr) (s : State) : Word :=
  match i with
  | .stx imm | .sty imm | .ldxA imm | .ldyA imm => dataAddress imm
  | _ => s.p

theorem exec_p {i : Instr} {s t : State} (h : exec i s = .next t) : t.p = pointerAfter i s := by
  cases i with
  | add | sub | and | or | xor | not | ldxI | ldyI | jmp | hlt | ldxA | ldyA => cases h; rfl
  | stx | sty => cases h; exact storeAt_p ..
  | jic | jiz => cases h; exact jumpIf_p ..

/-- An instruction does not look at the old P: it keeps it or overwrites it (R34). -/
theorem exec_setP {i : Instr} {s t : State} (h : exec i s = .next t) (p : Word) :
    ∃ q, exec i (s.setP p) = .next (t.setP q) := by
  cases i with
  | add | sub | and | or | xor | not | ldxI | ldyI | jmp | hlt => cases h; exact ⟨p, rfl⟩
  | ldxA imm | ldyA imm => cases h; exact ⟨dataAddress imm, rfl⟩
  | stx imm => cases h; exact ⟨dataAddress imm, by rw [exec, execStx, storeAt_setP]; rfl⟩
  | sty imm => cases h; exact ⟨dataAddress imm, by rw [exec, execSty, storeAt_setP]; rfl⟩
  | jic imm => cases h; exact ⟨p, by rw [exec, execJic, jumpIf_setP]; rfl⟩
  | jiz imm => cases h; exact ⟨p, by rw [exec, execJiz, jumpIf_setP]; rfl⟩

/-- A step does not look at the old P: neither the fetch nor the instruction does. -/
theorem step_setP {s t : State} (h : step s = .next t) (p : Word) : ∃ q, step (s.setP p) = .next (t.setP q) := by
  by_cases hs : s.status = .running
  · obtain ⟨q, hq⟩ := exec_setP ((step_running hs).symm.trans h) p
    exact ⟨q, (step_running (s := s.setP p) hs).trans hq⟩
  · cases (step_not_running s hs).symm.trans h
    exact ⟨p, step_not_running (s.setP p) hs⟩

/-- Any number of steps from two states that differ in P alone end in such states. -/
theorem core_run_setP (k : Nat) (s : State) (p : Word) :
    ∃ t, Sys2Proof.core.run k s = .next t ∧ ∃ q, Sys2Proof.core.run k (s.setP p) = .next (t.setP q) := by
  induction k generalizing s p with
  | zero => exact ⟨s, rfl, p, rfl⟩
  | succ k ih =>
    obtain ⟨t, ht⟩ := step_answers_next s
    obtain ⟨q, hq⟩ := step_setP ht p
    rw [core_run_succ k s t ht, core_run_succ k _ _ hq]
    exact ih t q

/-- Settles O41: by induction on the number of steps, since a step does not look at the old P. -/
theorem earlierPointerNeverMatters : Obligations.EarlierPointerNeverMatters := by
  intro k s t hst
  obtain ⟨s', hs', q, hq⟩ := core_run_setP k s t.p
  rw [← hst] at hq
  exact ⟨s', s'.setP q, hs', hq, rfl⟩

/-- Settles O35: the cases of `pointerAfter`. -/
theorem pointerIsTheLastDataAddress : Obligations.PointerIsTheLastDataAddress := by
  intro i s
  obtain ⟨t, hexec⟩ := exec_answers_next i s
  have hp := exec_p hexec
  refine ⟨t, hexec, fun hmem => ?_, fun hmem => ?_⟩
  · cases i with
    | stx imm | sty imm | ldxA imm | ldyA imm => exact ⟨imm, rfl, by rw [hp]; exact toNat_dataAddress imm⟩
    | add | sub | and | or | xor | not | ldxI | ldyI | jmp | jic | jiz | hlt => simp [Instr.mnemonic] at hmem
  · rw [hp]
    cases i with
    | stx imm | sty imm | ldxA imm | ldyA imm => simp [Instr.mnemonic] at hmem
    | add | sub | and | or | xor | not | ldxI | ldyI | jmp | jic | jiz | hlt => rfl

/-! ### The invariant -/

/-- P stays a zero-extended operand (R34). -/
theorem pointerAfter_le (i : Instr) {s : State} (hp : s.p.toNat ≤ 0xFFF) : (pointerAfter i s).toNat ≤ 0xFFF := by
  unfold pointerAfter
  split
  · exact zext16_le _
  · exact zext16_le _
  · exact zext16_le _
  · exact zext16_le _
  · exact hp

/-- Every instruction keeps the canonical form of the data store: only the two stores write it, through the controller. -/
theorem exec_dmem_wf {i : Instr} {s t : State} (h : exec i s = .next t) (hs : Memory.wf dmemWords s.dmem = true) :
    Memory.wf dmemWords t.dmem = true := by
  cases i with
  | add | sub | and | or | xor | not | ldxI | ldyI | jmp | hlt | ldxA | ldyA => cases h; exact hs
  | stx | sty => cases h; exact dmemWrite_wf _ _ _ hs
  | jic | jiz => cases h; rw [jumpIf_eq]; exact hs

/-- Every instruction keeps the invariant. -/
theorem exec_keeps_inv {i : Instr} {s t : State} (hs : s.Inv) (h : exec i s = .next t) : t.Inv := by
  obtain ⟨u, hu, himem, -⟩ := exec_keeps_stores i s
  cases hu.symm.trans h
  exact ⟨himem ▸ hs.imem_wf, exec_dmem_wf h hs.dmem_wf, exec_p h ▸ pointerAfter_le i hs.p_le⟩

/-- Settles O44: a step does nothing, or one instruction on the advanced state, whose stores and P are the old ones. -/
theorem stepKeepsTheInvariant : Obligations.StepKeepsTheInvariant := by
  intro s t hs ht
  obtain ⟨-, hstep⟩ | ⟨-, hstep⟩ := step_cases s
  · cases hstep.symm.trans ht; exact hs
  · have hadvance : (advance s).Inv := ⟨hs.imem_wf, hs.dmem_wf, hs.p_le⟩
    exact exec_keeps_inv hadvance (hstep.symm.trans ht)

/-- An image loads a store in canonical form. -/
theorem imageMemory_wf (params : Config.Params) (image : Image) :
    Memory.wf imemWords (imageMemory params image) = true := by
  cases image with
  | words ws => exact loadWords_wf ws
  | bytes bs => exact loadWords_wf _

/-- The test-only write changes the instruction store alone. -/
theorem imemWrite_eq (s : State) (a v : Word) :
    imemWrite s a v = s.setImem (if a.toNat < imemWords then Memory.set s.imem a.toNat v else s.imem) := by
  unfold imemWrite; split <;> rfl

/-- The test-only write keeps the invariant. -/
theorem imemWrite_keeps_inv {s : State} (h : s.Inv) (a v : Word) : (imemWrite s a v).Inv := by
  refine ⟨imemWrite_wf s a v h.imem_wf, ?_, ?_⟩
  · rw [imemWrite_dmem]; exact h.dmem_wf
  · rw [imemWrite_eq]; exact h.p_le

/-- Settles O45: the host's commands one by one, a run from the steps it makes. -/
theorem hostCommandsKeepTheInvariant : Obligations.HostCommandsKeepTheInvariant := by
  intro params fuel command s t reply hs h
  obtain ⟨image, -, rfl, -⟩ | ⟨-, rfl, -⟩ | ⟨_, r, -, hr, rfl, -⟩ | ⟨_, -, rfl, -⟩ |
    ⟨a, v, -, -, rfl, -⟩ := hostCommand_cases h
  · exact ⟨imageMemory_wf params image, rfl, Nat.zero_le _⟩
  · exact ⟨hs.imem_wf, hs.dmem_wf, hs.p_le⟩
  · exact runCommand_keeps stepKeepsTheInvariant (fun _ _ h => ⟨h.imem_wf, h.dmem_wf, h.p_le⟩)
      (fun _ _ h => ⟨h.imem_wf, h.dmem_wf, h.p_le⟩) hs hr
  · exact hs
  · exact imemWrite_keeps_inv hs a v

/-! ### Construction and reset -/

/-- Settles O43: empty stores are in canonical form. -/
theorem resetMeetsTheInvariant : Obligations.ResetMeetsTheInvariant := ⟨rfl, rfl, Nat.zero_le _⟩

/-- Settles O42: the fields of `construct` and `resetCommand`, and the load of the empty image. -/
theorem constructionAndResetValues : Obligations.ConstructionAndResetValues :=
  ⟨fun params image => ⟨rfl, rfl, rfl, rfl, rfl, rfl, rfl, dmemRead_construct params image, rfl⟩,
    fun _ => ⟨rfl, rfl, rfl, rfl, rfl, rfl, rfl, rfl, rfl⟩, fun _ _ _ => ⟨fun _ => rfl, rfl⟩, fun _ => rfl⟩

/-! ### The status -/

/-- Only HLT changes the status (R40). -/
theorem exec_status {i : Instr} {s t : State} (h : exec i s = .next t) :
    t.status = if i = .hlt then .halted else s.status := by
  cases i with
  | add | sub | and | or | xor | not | ldxI | ldyI | jmp | hlt | ldxA | ldyA => cases h; rfl
  | stx | sty => cases h; exact storeAt_status ..
  | jic | jiz => cases h; exact jumpIf_status ..

/-- Settles O37: the status instruction by instruction. -/
theorem onlyHaltChangesTheStatus : Obligations.OnlyHaltChangesTheStatus := fun i s =>
  have ⟨t, hexec⟩ := exec_answers_next i s
  ⟨t, hexec, exec_status hexec⟩

/-! ### The program counter -/

/-- PC after an instruction: the target of a jump that is taken, else the PC it was given (R37). -/
def pcAfter (i : Instr) (s : State) : Word :=
  match i with
  | .jmp imm => jumpTarget imm
  | .jic imm => if s.c then jumpTarget imm else s.pc
  | .jiz imm => if s.z then jumpTarget imm else s.pc
  | _ => s.pc

theorem exec_pc {i : Instr} {s t : State} (h : exec i s = .next t) : t.pc = pcAfter i s := by
  cases i with
  | add | sub | and | or | xor | not | ldxI | ldyI | jmp | hlt | ldxA | ldyA => cases h; rfl
  | stx | sty => cases h; exact storeAt_pc ..
  | jic | jiz => cases h; exact congrArg State.pc (jumpIf_eq ..)

/-- The zero extension keeps the value of the operand as a target (R173). -/
@[simp] theorem toNat_jumpTarget (imm : Operand) : (jumpTarget imm).toNat = imm.toNat :=
  toNat_dataAddress imm

/-- The advance goes from 0xFFFF to 0 (R111, D3). -/
theorem toNat_pc_advance (s : State) : (advance s).pc.toNat = (s.pc.toNat + 1) % 65536 := BitVec.toNat_add s.pc 1

/-- Settles O36: the cases of `pcAfter` on the advanced state, whose flags are the old ones. -/
theorem onlyJumpsOverrideTheAdvance : Obligations.OnlyJumpsOverrideTheAdvance := by
  intro s hs
  obtain ⟨t, hexec⟩ := exec_answers_next (decode (imemRead s s.pc)) (advance s)
  refine ⟨t, (step_running hs).trans hexec, ?_⟩
  rw [exec_pc hexec]
  cases decode (imemRead s s.pc) with
  | jmp imm => exact toNat_jumpTarget imm
  | jic imm | jiz imm => exact (apply_ite ..).trans (by rw [toNat_jumpTarget, toNat_pc_advance]; rfl)
  | add | sub | and | or | xor | not | ldxI | ldyI | stx | sty | hlt | ldxA | ldyA => exact toNat_pc_advance s

/-! ### The carry flag -/

/-- C after an instruction: ADD's carry, SUB's borrow, else the old C (R38). -/
theorem exec_c {i : Instr} {s t : State} (h : exec i s = .next t) :
    t.c = if i = .add then addCarry s.x s.y else if i = .sub then subCarry s.x s.y else s.c := by
  cases i with
  | add | sub | and | or | xor | not | ldxI | ldyI | jmp | hlt | ldxA | ldyA => cases h; rfl
  | stx | sty => cases h; exact storeAt_c ..
  | jic | jiz => cases h; exact jumpIf_c ..

/-- An instruction other than JIC does not look at C: it keeps it or overwrites it (R38). -/
theorem exec_setC {i : Instr} (hi : i.mnemonic ≠ .JIC) {s t : State} (h : exec i s = .next t) (b : Bool) :
    ∃ b', exec i (s.setC b) = .next (t.setC b') := by
  cases i with
  | add => cases h; exact ⟨addCarry s.x s.y, rfl⟩
  | sub => cases h; exact ⟨subCarry s.x s.y, rfl⟩
  | and | or | xor | not | ldxI | ldyI | jmp | hlt | ldxA | ldyA => cases h; exact ⟨b, rfl⟩
  | stx imm => cases h; exact ⟨b, by rw [exec, execStx, storeAt_setC]; rfl⟩
  | sty imm => cases h; exact ⟨b, by rw [exec, execSty, storeAt_setC]; rfl⟩
  | jic imm => exact absurd rfl hi
  | jiz imm => cases h; exact ⟨b, by rw [exec, execJiz, jumpIf_setC]; rfl⟩

/-- Settles O32: what an instruction leaves in C, and that only JIC looks at it. -/
theorem onlyAddAndSubWriteCarry : Obligations.OnlyAddAndSubWriteCarry := by
  intro i s
  obtain ⟨t, hexec⟩ := exec_answers_next i s
  refine ⟨t, hexec, exec_c hexec, fun hi b => ?_⟩
  obtain ⟨b', hset⟩ := exec_setC hi hexec b
  exact ⟨_, hset, rfl⟩

/-! ### The general registers -/

/-- An instruction that does not name X as its destination keeps it (R31). -/
theorem exec_keeps_x {i : Instr} (hi : i.mnemonic ∉ [Mnemonic.ADD, .SUB, .AND, .OR, .XOR, .NOT, .LDX_I, .LDX_A])
    {s t : State} (h : exec i s = .next t) : t.x = s.x := by
  cases i with
  | add | sub | and | or | xor | not | ldxI | ldxA => simp [Instr.mnemonic] at hi
  | ldyI | jmp | hlt | ldyA => cases h; rfl
  | stx | sty => cases h; exact storeAt_x ..
  | jic | jiz => cases h; exact jumpIf_x ..

/-- An instruction that does not name Y as its destination keeps it (R32). -/
theorem exec_keeps_y {i : Instr} (hi : i.mnemonic ∉ [Mnemonic.LDY_I, .LDY_A]) {s t : State}
    (h : exec i s = .next t) : t.y = s.y := by
  obtain ⟨u, hu, hkeep | ⟨imm, rfl, -⟩ | ⟨imm, rfl, -⟩⟩ := exec_y_cases i s
  · cases hu.symm.trans h; exact hkeep
  · simp [Instr.mnemonic] at hi
  · simp [Instr.mnemonic] at hi

/-- An instruction that does not name Y as a source does not look at it: it keeps it or overwrites it (R32). -/
theorem exec_setY {i : Instr} (hi : i.mnemonic ∉ [Mnemonic.ADD, .SUB, .AND, .OR, .XOR, .STY]) {s t : State}
    (h : exec i s = .next t) (v : Word) : ∃ v', exec i (s.setY v) = .next (t.setY v') := by
  cases i with
  | add | sub | and | or | xor | sty => simp [Instr.mnemonic] at hi
  | not | ldxI | jmp | hlt | ldxA => cases h; exact ⟨v, rfl⟩
  | ldyI imm => cases h; exact ⟨immediateValue imm, rfl⟩
  | ldyA imm => cases h; exact ⟨dmemRead s (dataAddress imm), rfl⟩
  | stx imm => cases h; exact ⟨v, by rw [exec, execStx, storeAt_setY]; rfl⟩
  | jic imm => cases h; exact ⟨v, by rw [exec, execJic, jumpIf_setY]; rfl⟩
  | jiz imm => cases h; exact ⟨v, by rw [exec, execJiz, jumpIf_setY]; rfl⟩

/-- Settles O34: what an instruction keeps of X and of Y, and that only those that name Y as a source look at it. -/
theorem generalRegistersWrittenOnlyByTheirInstructions :
    Obligations.GeneralRegistersWrittenOnlyByTheirInstructions := by
  intro i s
  obtain ⟨t, hexec⟩ := exec_answers_next i s
  refine ⟨t, hexec, fun hi => exec_keeps_x hi hexec, fun hi => exec_keeps_y hi hexec, fun hi v => ?_⟩
  obtain ⟨v', hset⟩ := exec_setY hi hexec v
  exact ⟨_, hset, rfl⟩

/-! ### A load after a store -/

theorem dataAddress_inj {a b : Operand} : dataAddress a = dataAddress b ↔ a = b := by
  rw [BitVec.toNat_inj.symm, toNat_dataAddress, toNat_dataAddress, BitVec.toNat_inj]

/-- A load from the address of a store reads the stored word, in range (R66, R77). -/
theorem dmemRead_storeAt (a b v : Word) (s : State) :
    dmemRead (storeAt a v s) b = if b = a ∧ a.toNat < dmemWords then v else dmemRead s b :=
  dmemRead_dmemWrite (s.setP a) a b v

theorem dmemRead_storeAt_dataAddress (imm : Operand) (v : Word) (s : State) :
    dmemRead (storeAt (dataAddress imm) v s) (dataAddress imm) = if imm.toNat < 192 then v else 0 := by
  rw [dmemRead_storeAt, dmemRead_dataAddress, toNat_dataAddress, dmemWords]
  by_cases hrange : imm.toNat < 192 <;> simp [hrange]

/-- Settles O40: both loads read through the data store's controller what the store wrote through it. -/
theorem loadAfterStoreGivesTheStoredWord : Obligations.LoadAfterStoreGivesTheStoredWord := by
  intro imm s
  have hread := fun v => dmemRead_storeAt_dataAddress imm v s
  refine ⟨_, _, rfl, rfl, ⟨_, rfl, hread s.x⟩, ⟨_, rfl, hread s.x⟩, ⟨_, rfl, hread s.y⟩, ⟨_, rfl, hread s.y⟩,
    fun other hother => ⟨_, _, rfl, rfl, ?_⟩⟩
  have hne : dataAddress other ≠ dataAddress imm := mt dataAddress_inj.1 hother
  exact (dmemRead_storeAt ..).trans (if_neg fun h => hne h.1)

end Sys2Proof.Machine

/-! The load of a byte image (spec/20_memory.md R72), and that a canonical store is determined by what it reads. -/

namespace Sys2Proof.Machine

/-! ### The load of a byte image -/

/-- Word `k` of a byte image is made of its bytes `2k` and `2k + 1`, where both stand in it (R72). -/
theorem getD_wordsOfBytes (order : ByteOrder) (bs : List Byte) (k : Nat) :
    (wordsOfBytes order bs).getD k 0 =
      if k < bs.length / 2 then wordOfBytes order (bs.getD (2 * k) 0) (bs.getD (2 * k + 1) 0) else 0 := by
  induction bs using wordsOfBytes.induct generalizing k with
  | case1 b₀ b₁ rest ih =>
    cases k with
    | zero => simp [wordsOfBytes]
    | succ k =>
      have hlen : (b₀ :: b₁ :: rest).length / 2 = rest.length / 2 + 1 := Nat.add_div_right _ two_pos
      rw [wordsOfBytes, List.getD_cons_succ, ih, hlen]
      simp only [Nat.add_lt_add_iff_right, Nat.mul_add, Nat.mul_one, List.getD_cons_succ, Nat.add_right_comm _ 2 1]
  | case2 bs hshort =>
    match bs, hshort with
    | [], _ => simp [wordsOfBytes]
    | [_], _ => simp [wordsOfBytes]
    | b₀ :: b₁ :: rest, hshort => exact (hshort b₀ b₁ rest rfl).elim

theorem toNat_wordOfBytes_little (b₀ b₁ : Byte) : (wordOfBytes .little b₀ b₁).toNat = b₀.toNat + 256 * b₁.toNat := by
  have h₀ := b₀.isLt
  have h₁ := b₁.isLt
  exact Nat.mod_eq_of_lt (by omega)

theorem toNat_wordOfBytes_big (b₀ b₁ : Byte) : (wordOfBytes .big b₀ b₁).toNat = 256 * b₀.toNat + b₁.toNat := by
  have h₀ := b₀.isLt
  have h₁ := b₁.isLt
  exact Nat.mod_eq_of_lt (by omega)

/-- Settles O9: a byte image loads as the sequence of its words. -/
theorem byteImageFillsInstructionStore : Obligations.ByteImageFillsInstructionStore := by
  intro params bs a
  have hload : imemRead (construct params (.bytes bs)) a = _ :=
    wordImageFillsInstructionStore params (wordsOfBytes params.imageByteOrder bs) a
  rw [hload, getD_wordsOfBytes, ← ite_and]
  split
  · cases params.imageByteOrder with
    | little => exact toNat_wordOfBytes_little _ _
    | big => exact toNat_wordOfBytes_big _ _
  · rfl

/-! ### Canonical stores -/

/-- A store lists every cell that reads other than zero. -/
theorem Memory.mem_of_get_ne_zero {m : Memory} {a : Nat} (h : Memory.get m a ≠ 0) : (a, Memory.get m a) ∈ m := by
  induction m with
  | nil => exact absurd rfl h
  | cons cell m ih =>
    obtain ⟨b, v⟩ := cell
    by_cases hb : b = a
    · simp [Memory.get, hb]
    · simp only [Memory.get, hb, if_false] at h ⊢
      exact List.mem_cons_of_mem _ (ih h)

/-- Where the addresses rise strictly, every listed cell reads its word. -/
theorem Memory.get_of_mem {m : Memory} (hm : m.Pairwise fun c d => c.1 < d.1) {c : Nat × Word} (hc : c ∈ m) :
    Memory.get m c.1 = c.2 := by
  induction m with
  | nil => cases hc
  | cons cell m ih =>
    obtain ⟨hcell, hrest⟩ := List.pairwise_cons.1 hm
    obtain rfl | hc := List.mem_cons.1 hc
    · exact if_pos rfl
    · exact (if_neg (hcell c hc).ne).trans (ih hrest hc)

/-- A canonical store lists exactly the cells in range that read other than zero, each with its word. -/
theorem Memory.mem_iff_of_wf {n : Nat} {m : Memory} (hm : Memory.wf n m = true) (c : Nat × Word) :
    c ∈ m ↔ c.1 < n ∧ c.2 ≠ 0 ∧ Memory.get m c.1 = c.2 := by
  obtain ⟨hrise, hcells⟩ := (Memory.wf_iff n m).1 hm
  constructor
  · intro hc
    exact ⟨(hcells c hc).1, (hcells c hc).2, Memory.get_of_mem hrise hc⟩
  · rintro ⟨-, hne, hget⟩
    have hmem := Memory.mem_of_get_ne_zero (hget.trans_ne hne)
    rwa [hget] at hmem

/-- Settles O10: stores that read alike list the same cells, and strictly rising lists of the same cells are equal. -/
theorem canonicalStoresReadingAlikeAreEqual : Obligations.CanonicalStoresReadingAlikeAreEqual := by
  intro n m m' hm hm' hget
  have : Std.Irrefl fun c d : Nat × Word => c.1 < d.1 := ⟨fun c => lt_irrefl c.1⟩
  have : Std.Antisymm fun c d : Nat × Word => c.1 < d.1 := ⟨fun _ _ h h' => absurd h h'.asymm⟩
  refine ((Memory.wf_iff n m).1 hm).1.eq_of_mem_iff ((Memory.wf_iff n m').1 hm').1 fun c => ?_
  rw [Memory.mem_iff_of_wf hm, Memory.mem_iff_of_wf hm']
  exact and_congr_right fun hc => by rw [hget c.1 hc]

end Sys2Proof.Machine

/-! One step (spec/40_execution_cycle.md R111, spec/41_alu.md R142, R143): ADD and SUB, the instruction a step runs, and
the word that is placed for it. -/

namespace Sys2Proof.Machine

/-! ### ADD and SUB -/

/-- The next state of ADD (R142). -/
theorem exec_add (s : State) : exec .add s = .next { s with
    x := s.x + s.y, c := decide (0xFFFF < s.x.toNat + s.y.toNat), z := decide (s.x + s.y = 0),
    cycles := s.cycles + 1 } := by
  rw [← addResult_eq]
  exact (execAdd_eq s).trans (congrArg _ (setX_setZ_setCycles_eq (s.setC _) _ _ Iff.rfl))

/-- The next state of SUB (R143): a difference is 0 exactly when the words are equal. -/
theorem exec_sub (s : State) : exec .sub s = .next { s with
    x := s.x - s.y, c := decide (s.x.toNat < s.y.toNat), z := decide (s.x = s.y), cycles := s.cycles + 1 } := by
  rw [← subResult_eq]
  have hzero : subResult s.x s.y = 0 ↔ s.x = s.y := by rw [subResult_eq]; exact sub_eq_zero
  exact (execSub_eq s).trans (congrArg _ (setX_setZ_setCycles_eq (s.setC _) _ _ hzero))

/-- Settles O11: row 0x0, the next state of ADD, and the cost of an ALU step. -/
theorem addWritesSumCarryAndZero : Obligations.AddWritesSumCarryAndZero :=
  have hmem : Instr.add ∈ aluInstrs := by decide
  ⟨fun _ => decode_of_and_mask_eq_encode hmem, exec_add, fun _ => step_cycles_of_aluInstr hmem⟩

/-- Settles O12: row 0x1, the next state of SUB, and the cost of an ALU step. -/
theorem subWritesDifferenceBorrowAndZero : Obligations.SubWritesDifferenceBorrowAndZero :=
  have hmem : Instr.sub ∈ aluInstrs := by decide
  ⟨fun _ => decode_of_and_mask_eq_encode hmem, exec_sub, fun _ => step_cycles_of_aluInstr hmem⟩

/-! ### What a step runs -/

/-- Settles O27: the controller's read of the word at PC, and the two cases of a step. -/
theorem stepRunsTheDecodedInstruction : Obligations.StepRunsTheDecodedInstruction :=
  ⟨fun _ hs => step_running hs, step_not_running⟩

/-- Settles O31: beyond the store the fetch reads 0x0000, which decodes to ADD. -/
theorem fetchBeyondTheStoreAdds : Obligations.FetchBeyondTheStoreAdds := by
  intro s hs hpc
  have hadd : decode (imemRead s s.pc) = .add := by rw [imemRead_of_le s hpc]; rfl
  rw [step_running hs, hadd]
  exact exec_add (advance s)

/-! ### The placed word -/

/-- The address a word is placed at is in range. -/
theorem toNat_withFetchWord_pc_lt (s : State) (nbits w : Nat) : (s.withFetchWord nbits w).pc.toNat < imemWords := by
  have hpc : (s.withFetchWord nbits w).pc = if s.pc.toNat < imemWords then s.pc else 0 := rfl
  rw [hpc]
  split
  case isTrue h => exact h
  case isFalse => decide

/-- The next fetch reads the placed word. -/
theorem imemRead_withFetchWord (s : State) (nbits w : Nat) :
    imemRead (s.withFetchWord nbits w) (s.withFetchWord nbits w).pc = BitVec.ofNat 16 (w % 2 ^ nbits) :=
  (imemRead_imemWrite s _ _ _).trans (if_pos ⟨rfl, toNat_withFetchWord_pc_lt s nbits w⟩)

/-- Placing a word touches PC, the instruction store and the status alone. -/
theorem withFetchWord_frame (s : State) (nbits w : Nat) :
    { s.withFetchWord nbits w with pc := s.pc, imem := s.imem, status := s.status } = s := by
  rw [State.withFetchWord, imemWrite_eq]; rfl

/-- Settles O28: a step of the state with the word placed fetches that word. -/
theorem placedWordRunsNext : Obligations.PlacedWordRunsNext := by
  intro s w _
  refine ⟨_, if_pos (by decide), ?_, rfl, withFetchWord_frame s 16 w⟩
  rw [step_running rfl, imemRead_withFetchWord]

end Sys2Proof.Machine

/-! The run command (spec/40_execution_cycle.md R114 to R122) as the iteration of steps: one round of its loop, the
sequence of steps it makes, its fuel, its budget, and its cycle count. -/

namespace Sys2Proof.Machine

/-! ### One step, seen by the loop -/

/-- A step of a run leaves the core running or halts it (R40). -/
theorem step_status {s t : State} (hs : s.status = .running) (h : step s = .next t) :
    t.status = .running ∨ t.status = .halted := by
  rw [step_running hs] at h
  rw [exec_status h]
  split
  · exact .inr rfl
  · exact .inl hs

theorem fetchCost_add_extraCost_le (i : Instr) : fetchCost + extraCost i ≤ 5 := by
  cases i <;> simp [fetchCost, extraCost]

/-- A step adds at most 5 cycles (R112). -/
theorem step_cycles_le {s t : State} (h : step s = .next t) : t.cycles ≤ s.cycles + 5 := by
  by_cases hs : s.status = .running
  · obtain ⟨u, hu, hcycles⟩ := step_cycles hs
    cases hu.symm.trans h
    rw [hcycles]
    exact Nat.add_le_add_left (fetchCost_add_extraCost_le _) _
  · cases (step_not_running s hs).symm.trans h
    exact Nat.le_add_right _ 5

theorem budgetSpent_eq_false_iff (max : Nat) (s : State) : budgetSpent max s = false ↔ (0 < max → s.cycles < max) := by
  rw [← Bool.not_eq_true, budgetSpent_iff, Classical.not_and_iff_not_or_not, ← imp_iff_not_or, Nat.not_le]

/-- A budget of 0 is never spent (R114). -/
@[simp] theorem budgetSpent_zero (s : State) : budgetSpent 0 s = false := rfl

/-- Everything a round of the loop that returns can have done. -/
theorem runLoop_succ_cases {max fuel : Nat} {s : State} {r : RunReturn} (h : runLoop max (fuel + 1) s = some r) :
    (budgetSpent max s = true ∧ r = { state := s, cycles := s.cycles, outcome := .budgetExhausted }) ∨
    (budgetSpent max s = false ∧ ∃ t, step s = .next t ∧
      ((t.status = .halted ∧ r = { state := t, cycles := t.cycles, outcome := .halted }) ∨
        (t.status ≠ .halted ∧ runLoop max fuel t = some r))) := by
  obtain ⟨t, ht⟩ := step_answers_next s
  cases hspent : budgetSpent max s with
  | true =>
    rw [runLoop_spent max fuel s hspent] at h
    cases h; exact .inl ⟨rfl, rfl⟩
  | false =>
    refine .inr ⟨rfl, t, ht, ?_⟩
    by_cases hhalt : t.status = .halted
    · rw [runLoop_halts max fuel s t hspent ht hhalt] at h
      cases h; exact .inl ⟨hhalt, rfl⟩
    · rw [runLoop_goes_on max fuel s t hspent ht hhalt] at h
      exact .inr ⟨hhalt, h⟩

/-- Everything a run command that returns can have done (R116). -/
theorem runCommand_cases {params : Config.Params} {fuel max : Nat} {s : State} {r : RunReturn}
    (h : runCommand params fuel max s = some r) :
    ((params.haltSticky = true ∧ s.status = .halted) ∧ r = { state := s, cycles := 0, outcome := .halted }) ∨
    (¬ (params.haltSticky = true ∧ s.status = .halted) ∧
      ∃ r', runLoop max fuel (beginRun s) = some r' ∧ r = endRun r') := by
  unfold runCommand at h
  split at h
  case isTrue hsticky => cases h; exact .inl ⟨hsticky, rfl⟩
  case isFalse hsticky =>
    obtain ⟨r', hloop, rfl⟩ := Option.map_eq_some_iff.1 h
    exact .inr ⟨hsticky, r', hloop, rfl⟩

theorem runCommand_of_not_sticky {params : Config.Params} {s : State}
    (h : ¬ (params.haltSticky = true ∧ s.status = .halted)) (fuel max : Nat) :
    runCommand params fuel max s = (runLoop max fuel (beginRun s)).map endRun := if_neg h

/-- By default a run starts whatever the status (D9). -/
theorem runCommand_defaultParams (fuel max : Nat) (s : State) :
    runCommand defaultParams fuel max s = (runLoop max fuel (beginRun s)).map endRun :=
  runCommand_of_not_sticky (fun h => Bool.false_ne_true h.1) fuel max

/-! ### The fuel -/

/-- More fuel gives the same return. -/
theorem runLoop_add_fuel {max fuel : Nat} {s : State} {r : RunReturn} (h : runLoop max fuel s = some r) (more : Nat) :
    runLoop max (fuel + more) s = some r := by
  induction fuel generalizing s with
  | zero => cases h
  | succ fuel ih =>
    rw [Nat.add_right_comm]
    obtain ⟨hspent, rfl⟩ | ⟨hspent, t, ht, ⟨hhalt, rfl⟩ | ⟨hhalt, hrest⟩⟩ := runLoop_succ_cases h
    · exact runLoop_spent max _ s hspent
    · exact runLoop_halts max _ s t hspent ht hhalt
    · exact (runLoop_goes_on max _ s t hspent ht hhalt).trans (ih hrest)

/-- Settles O53: by induction on the fuel. -/
theorem moreFuelGivesTheSameRun : Obligations.MoreFuelGivesTheSameRun := by
  intro params fuel more max s r h
  obtain ⟨hsticky, rfl⟩ | ⟨hsticky, r', hloop, rfl⟩ := runCommand_cases h
  · exact if_pos hsticky
  · rw [runCommand_of_not_sticky hsticky, runLoop_add_fuel hloop, Option.map_some]

/-! ### The steps of a run -/

theorem State.runs_zero_iff {max : Nat} {s t : State} : s.Runs max 0 t ↔ t = s := by
  constructor
  · rintro ⟨hrun, -⟩
    exact (Host.Outcome.next.inj hrun).symm
  · rintro rfl
    exact ⟨rfl, fun j hj => absurd hj (Nat.not_lt_zero j)⟩

/-- A run of `k + 1` steps is a step from a running state with budget left, and a run of `k` steps. -/
theorem State.runs_succ_iff {max k : Nat} {s t : State} :
    s.Runs max (k + 1) t ↔
      s.status = .running ∧ (0 < max → s.cycles < max) ∧ ∃ u, step s = .next u ∧ u.Runs max k t := by
  obtain ⟨u, hu⟩ := step_answers_next s
  have hsucc (j : Nat) := core_run_succ j s u hu
  constructor
  · rintro ⟨hrun, hbefore⟩
    obtain ⟨v, hv, hstatus, hbudget⟩ := hbefore 0 (Nat.succ_pos k)
    cases hv
    refine ⟨hstatus, hbudget, u, hu, (hsucc k).symm.trans hrun, fun j hj => ?_⟩
    obtain ⟨w, hw, hrest⟩ := hbefore (j + 1) (Nat.succ_lt_succ hj)
    exact ⟨w, (hsucc j).symm.trans hw, hrest⟩
  · rintro ⟨hstatus, hbudget, v, hv, hrun, hbefore⟩
    cases hu.symm.trans hv
    refine ⟨(hsucc k).trans hrun, fun j hj => ?_⟩
    cases j with
    | zero => exact ⟨s, rfl, hstatus, hbudget⟩
    | succ j =>
      obtain ⟨w, hw, hrest⟩ := hbefore j (Nat.lt_of_succ_lt_succ hj)
      exact ⟨w, (hsucc j).trans hw, hrest⟩

/-- From a Halted state a run makes no step. -/
theorem State.Runs.eq_of_halted {max k : Nat} {s t : State} (h : s.Runs max k t) (hs : s.status = .halted) : t = s := by
  cases k with
  | zero => exact State.runs_zero_iff.1 h
  | succ k =>
    obtain ⟨hrunning, -⟩ := State.runs_succ_iff.1 h
    cases hs.symm.trans hrunning

/-- The state at which the loop returns, and the outcome it returns: Halted, or Running with the budget spent (R114). -/
def State.EndsRun (max : Nat) (t : State) (o : RunOutcome) : Prop :=
  (o = .halted ∧ t.status = .halted) ∨ (o = .budgetExhausted ∧ t.status = .running ∧ 0 < max ∧ max ≤ t.cycles)

/-- The steps of a loop that returns. -/
theorem exists_runs_of_runLoop {max fuel : Nat} {s : State} {r : RunReturn} (hs : s.status = .running)
    (h : runLoop max fuel s = some r) :
    ∃ k, s.Runs max k r.state ∧ r.cycles = r.state.cycles ∧ r.state.EndsRun max r.outcome := by
  induction fuel generalizing s with
  | zero => cases h
  | succ fuel ih =>
    obtain ⟨hspent, rfl⟩ | ⟨hspent, t, ht, hround⟩ := runLoop_succ_cases h
    · exact ⟨0, State.runs_zero_iff.2 rfl, rfl, .inr ⟨rfl, hs, (budgetSpent_iff max s).1 hspent⟩⟩
    · have hbudget := (budgetSpent_eq_false_iff max s).1 hspent
      obtain ⟨hhalt, rfl⟩ | ⟨hhalt, hrest⟩ := hround
      · exact ⟨1, State.runs_succ_iff.2 ⟨hs, hbudget, t, ht, State.runs_zero_iff.2 rfl⟩, rfl, .inl ⟨rfl, hhalt⟩⟩
      · obtain ⟨k, hruns, hend⟩ := ih ((step_status hs ht).resolve_right hhalt) hrest
        exact ⟨k + 1, State.runs_succ_iff.2 ⟨hs, hbudget, t, ht, hruns⟩, hend⟩

/-- The loop returns once its steps reach a state at which it ends. -/
theorem exists_runLoop_of_runs {max k : Nat} {s t : State} {o : RunOutcome} (hs : s.status = .running)
    (h : s.Runs max k t) (hend : t.EndsRun max o) :
    ∃ fuel, runLoop max fuel s = some { state := t, cycles := t.cycles, outcome := o } := by
  induction k generalizing s with
  | zero =>
    obtain rfl := State.runs_zero_iff.1 h
    obtain ⟨-, hhalt⟩ | ⟨rfl, -, hspent⟩ := hend
    · cases hs.symm.trans hhalt
    · exact ⟨1, runLoop_spent max 0 t ((budgetSpent_iff max t).2 hspent)⟩
  | succ k ih =>
    obtain ⟨-, hbudget, u, hu, hruns⟩ := State.runs_succ_iff.1 h
    have hspent := (budgetSpent_eq_false_iff max s).2 hbudget
    obtain hrunning | hhalt := step_status hs hu
    · obtain ⟨fuel, hfuel⟩ := ih hrunning hruns
      refine ⟨fuel + 1, (runLoop_goes_on max fuel s u hspent hu ?_).trans hfuel⟩
      rw [hrunning]; decide
    · obtain rfl := hruns.eq_of_halted hhalt
      obtain ⟨rfl, -⟩ | ⟨-, hrunning, -⟩ := hend
      · exact ⟨1, runLoop_halts max 0 s t hspent hu hhalt⟩
      · cases hhalt.symm.trans hrunning

/-- A run command returns exactly when its steps reach a state at which it ends; the counter is cleared there (R118). -/
theorem exists_runCommand_iff {params : Config.Params} {max : Nat} {s : State} {r : RunReturn}
    (hsticky : ¬ (params.haltSticky = true ∧ s.status = .halted)) :
    (∃ fuel, runCommand params fuel max s = some r) ↔
      ∃ k t, (beginRun s).Runs max k t ∧ r.state = t.setCycles 0 ∧ r.cycles = t.cycles ∧ t.EndsRun max r.outcome := by
  simp only [runCommand_of_not_sticky hsticky, Option.map_eq_some_iff]
  constructor
  · rintro ⟨fuel, r', hloop, rfl⟩
    obtain ⟨k, hruns, hcycles, hend⟩ := exists_runs_of_runLoop rfl hloop
    exact ⟨k, r'.state, hruns, rfl, hcycles, hend⟩
  · rintro ⟨k, t, hruns, hstate, hcycles, hend⟩
    obtain ⟨fuel, hloop⟩ := exists_runLoop_of_runs rfl hruns hend
    obtain ⟨_, _, o⟩ := r
    cases hstate
    cases hcycles
    exact ⟨fuel, _, hloop, rfl⟩

/-- Settles O46: a run by the steps of its loop, the host's command by the two answers of a run. -/
theorem runIsIteratedSteps : Obligations.RunIsIteratedSteps := by
  refine ⟨fun params max s r hsticky => exists_runCommand_iff hsticky,
    fun params fuel max s => ⟨fun r h => ?_, fun h => ?_, rfl⟩⟩
  · simp only [hostCommand, Option.getD_some, h]
  · simp only [hostCommand, Option.getD_some, h]

/-- Settles O54: a step of a Halted core does nothing, so by induction neither does any number of them. -/
theorem haltedCoreStaysAsItIs : Obligations.HaltedCoreStaysAsItIs := by
  intro k s hs
  induction k with
  | zero => rfl
  | succ k ih =>
    have hstep : step s = .next s := step_not_running s (by rw [hs]; decide)
    exact (core_run_succ k s s hstep).trans ih

/-! ### Runs without a budget -/

/-- Any number of steps from a running core leave it running, or reach a Halted state on the way. -/
theorem running_or_runs_to_halted (k : Nat) {s : State} (hs : s.status = .running) :
    (∃ t, Sys2Proof.core.run k s = .next t ∧ t.status = .running) ∨ ∃ j t, s.Runs 0 j t ∧ t.status = .halted := by
  induction k generalizing s with
  | zero => exact .inl ⟨s, rfl, hs⟩
  | succ k ih =>
    obtain ⟨u, hu⟩ := step_answers_next s
    have hruns {j : Nat} {t : State} (h : u.Runs 0 j t) : s.Runs 0 (j + 1) t :=
      State.runs_succ_iff.2 ⟨hs, fun h0 => absurd h0 (Nat.lt_irrefl 0), u, hu, h⟩
    obtain hrunning | hhalt := step_status hs hu
    · rw [core_run_succ k s u hu]
      obtain hall | ⟨j, t, hj, ht⟩ := ih hrunning
      · exact .inl hall
      · exact .inr ⟨j + 1, t, hruns hj, ht⟩
    · exact .inr ⟨1, u, hruns (State.runs_zero_iff.2 rfl), hhalt⟩

/-- Settles O52: without a budget the loop ends at a Halted state only. -/
theorem unboundedRunReturnsOnlyByHalt : Obligations.UnboundedRunReturnsOnlyByHalt := by
  intro params s hsticky
  constructor
  · intro hnone k
    refine (running_or_runs_to_halted k rfl).resolve_right ?_
    rintro ⟨j, t, hruns, hhalt⟩
    obtain ⟨fuel, hsome⟩ := (exists_runCommand_iff (r := ⟨t.setCycles 0, t.cycles, .halted⟩) hsticky).2
      ⟨j, t, hruns, rfl, rfl, .inl ⟨rfl, hhalt⟩⟩
    cases (hnone fuel).symm.trans hsome
  · intro hrunning fuel
    cases hrun : runCommand params fuel 0 s with
    | none => rfl
    | some r =>
      obtain ⟨k, t, ⟨hk, -⟩, -, -, ⟨-, hhalt⟩ | ⟨-, -, hpos, -⟩⟩ := (exists_runCommand_iff hsticky).1 ⟨fuel, hrun⟩
      · obtain ⟨u, hu, hstatus⟩ := hrunning k
        cases hk.symm.trans hu
        cases hhalt.symm.trans hstatus
      · exact absurd hpos (Nat.lt_irrefl 0)

/-! ### The cycle count -/

/-- Every step starts below the budget and adds at most 5, so the count exceeds the budget by at most 4. -/
theorem State.Runs.cycles_le {max k : Nat} {s t : State} (h : s.Runs max k t) (hmax : 0 < max)
    (hs : s.cycles ≤ max + 4) : t.cycles ≤ max + 4 := by
  induction k generalizing s with
  | zero => rwa [State.runs_zero_iff.1 h]
  | succ k ih =>
    obtain ⟨-, hbudget, u, hu, hruns⟩ := State.runs_succ_iff.1 h
    have hlt := hbudget hmax
    have hle := step_cycles_le hu
    exact ih hruns (by omega)

/-- Settles O47: the count starts at 0, and a step overshoots the budget by at most 4. -/
theorem budgetOvershootsByAtMostFour : Obligations.BudgetOvershootsByAtMostFour := by
  intro params fuel max s r h hout
  obtain ⟨-, rfl⟩ | ⟨hsticky, -⟩ := runCommand_cases h
  · cases hout
  · obtain ⟨k, t, hruns, hstate, hcycles, ⟨hhalted, -⟩ | ⟨-, hrunning, hpos, hspent⟩⟩ :=
      (exists_runCommand_iff hsticky).1 ⟨fuel, h⟩
    · cases hout.symm.trans hhalted
    · rw [hcycles, hstate]
      exact ⟨hpos, hspent, hruns.cycles_le hpos (Nat.zero_le _), hrunning⟩

/-- Settles O48: by induction on the steps, each of which charges the cost of the word it fetches. -/
theorem countIsTheSumOfCosts : Obligations.CountIsTheSumOfCosts := by
  intro max k s t h
  induction k generalizing s with
  | zero => exact ⟨[], rfl, fun j hj => absurd hj (Nat.not_lt_zero j), by rw [State.runs_zero_iff.1 h]; rfl⟩
  | succ k ih =>
    obtain ⟨hs, -, u, hu, hruns⟩ := State.runs_succ_iff.1 h
    obtain ⟨words, hlen, hwords, hcycles⟩ := ih u hruns
    obtain ⟨v, hv, hcost⟩ := eachStepChargesTheTablesCost s hs
    cases hu.symm.trans hv
    refine ⟨imemRead s s.pc :: words, congrArg Nat.succ hlen, fun j hj => ?_, ?_⟩
    · cases j with
      | zero => exact ⟨s, rfl, rfl⟩
      | succ j =>
        obtain ⟨w, hw, hword⟩ := hwords j (Nat.lt_of_succ_lt_succ hj)
        exact ⟨w, (core_run_succ j s u hu).trans hw, hword⟩
    · rw [hcycles, hcost, List.map_cons, List.sum_cons, Nat.add_assoc]

/-- Settles O49: the counter starts at 0, and after one step it has reached 1. -/
theorem budgetOneRunsOneInstruction : Obligations.BudgetOneRunsOneInstruction := by
  intro s fuel
  obtain ⟨t, ht, hcycles⟩ := step_cycles (s := beginRun s) rfl
  have hfirst : budgetSpent 1 (beginRun s) = false := rfl
  refine ⟨t, ht, ?_⟩
  rw [runCommand_defaultParams]
  by_cases hhalt : t.status = .halted
  · rw [runLoop_halts 1 _ _ t hfirst ht hhalt, if_pos hhalt]; rfl
  · have hspent : budgetSpent 1 t = true := by
      rw [budgetSpent_iff, hcycles, fetchCost]
      omega
    rw [runLoop_goes_on 1 _ _ t hfirst ht hhalt, runLoop_spent 1 _ t hspent, if_neg hhalt]; rfl

/-! ### Resuming a run -/

/-- A loop with a budget makes the rounds of the one without, and stops at its end or where the budget is spent; from
there the loop without a budget ends as from the start. -/
theorem runLoop_budgeted {max fuel : Nat} {s : State} {r : RunReturn} (hs : s.status = .running)
    (h : runLoop 0 fuel s = some r) :
    ∃ r₁, runLoop max fuel s = some r₁ ∧
      (r₁ = r ∨ (r₁.outcome = .budgetExhausted ∧ r₁.cycles = r₁.state.cycles ∧ r₁.state.status = .running ∧
        ∃ fuel₂, runLoop 0 fuel₂ r₁.state = some r)) := by
  induction fuel generalizing s with
  | zero => cases h
  | succ fuel ih =>
    cases hspent : budgetSpent max s with
    | true => exact ⟨_, runLoop_spent max fuel s hspent, .inr ⟨rfl, rfl, hs, fuel + 1, h⟩⟩
    | false =>
      obtain ⟨hzero, -⟩ | ⟨-, t, ht, ⟨hhalt, rfl⟩ | ⟨hhalt, hrest⟩⟩ := runLoop_succ_cases h
      · cases hzero
      · exact ⟨_, runLoop_halts max fuel s t hspent ht hhalt, .inl rfl⟩
      · rw [runLoop_goes_on max fuel s t hspent ht hhalt]
        exact ih ((step_status hs ht).resolve_right hhalt) hrest

theorem storeAt_addCycles (a v : Word) (s : State) (n : Nat) :
    storeAt a v (addCycles s n) = addCycles (storeAt a v s) n := by
  rw [storeAt_eq, storeAt_eq]; rfl

theorem jumpIf_addCycles (b : Bool) (a : Word) (s : State) (n : Nat) :
    jumpIf b a (addCycles s n) = addCycles (jumpIf b a s) n := by
  rw [jumpIf_eq, jumpIf_eq]; rfl

/-- Charges may be made in either order. -/
theorem addCycles_right_comm (s : State) (m n : Nat) : addCycles (addCycles s m) n = addCycles (addCycles s n) m :=
  congrArg s.setCycles (Nat.add_right_comm s.cycles m n)

/-- An instruction does not look at the cycle counter. -/
theorem exec_addCycles {i : Instr} {s t : State} (h : exec i s = .next t) (n : Nat) :
    exec i (addCycles s n) = .next (addCycles t n) := by
  have heffect : ∃ u, exec i s = .next (charge i u) ∧ exec i (addCycles s n) = .next (charge i (addCycles u n)) := by
    cases i with
    | add | sub | and | or | xor | not | ldxI | ldyI | jmp | hlt | ldxA | ldyA => exact ⟨_, rfl, rfl⟩
    | stx imm => exact ⟨_, rfl, by rw [exec, execStx, storeAt_addCycles]; rfl⟩
    | sty imm => exact ⟨_, rfl, by rw [exec, execSty, storeAt_addCycles]; rfl⟩
    | jic imm => exact ⟨_, rfl, by rw [exec, execJic, jumpIf_addCycles]; rfl⟩
    | jiz imm => exact ⟨_, rfl, by rw [exec, execJiz, jumpIf_addCycles]; rfl⟩
  obtain ⟨u, hu, hun⟩ := heffect
  cases hu.symm.trans h
  exact hun.trans (congrArg _ (addCycles_right_comm u n (extraCost i)))

/-- A step does not look at the cycle counter. -/
theorem step_addCycles {s t : State} (h : step s = .next t) (n : Nat) :
    step (addCycles s n) = .next (addCycles t n) := by
  by_cases hs : s.status = .running
  · have hadvance : advance (addCycles s n) = addCycles (advance s) n :=
      congrArg (State.setPc · (s.pc + 1)) (addCycles_right_comm s n fetchCost)
    rw [step_running (s := addCycles s n) hs, hadvance]
    exact exec_addCycles ((step_running hs).symm.trans h) n
  · cases (step_not_running s hs).symm.trans h
    exact step_not_running (addCycles s n) hs

/-- A run's return with `n` more cycles on its counter. -/
def RunReturn.addCycles (n : Nat) (r : RunReturn) : RunReturn :=
  { state := Machine.addCycles r.state n, cycles := r.cycles + n, outcome := r.outcome }

/-- A loop without a budget does not look at the cycle counter. -/
theorem runLoop_zero_addCycles (fuel : Nat) (s : State) (n : Nat) :
    runLoop 0 fuel (addCycles s n) = (runLoop 0 fuel s).map (RunReturn.addCycles n) := by
  induction fuel generalizing s with
  | zero => rfl
  | succ fuel ih =>
    obtain ⟨t, ht⟩ := step_answers_next s
    have htn := step_addCycles ht n
    by_cases hhalt : t.status = .halted
    · rw [runLoop_halts 0 fuel s t (budgetSpent_zero s) ht hhalt,
        runLoop_halts 0 fuel _ _ (budgetSpent_zero _) htn hhalt]
      rfl
    · rw [runLoop_goes_on 0 fuel s t (budgetSpent_zero s) ht hhalt,
        runLoop_goes_on 0 fuel _ _ (budgetSpent_zero _) htn hhalt, ih]

/-- A running state is the one its own run resumes at, with the cycles counted before (R117). -/
theorem addCycles_beginRun {s : State} (hs : s.status = .running) : addCycles (beginRun s) s.cycles = s := by
  obtain ⟨pc, x, y, p, c, z, imem, dmem, status, cycles⟩ := s
  cases hs
  exact congrArg _ (Nat.zero_add cycles)

/-- Settles O51: the loop with a budget stops on the way of the one without, and resuming differs from going on by the
cycles counted before. -/
theorem budgetedRunResumesToTheSameEnd : Obligations.BudgetedRunResumesToTheSameEnd := by
  intro fuel max s r _ h
  simp only [runCommand_defaultParams] at h ⊢
  obtain ⟨r, hloop, rfl⟩ := Option.map_eq_some_iff.1 h
  obtain ⟨r₁, hbudgeted, hend⟩ := runLoop_budgeted (max := max) rfl hloop
  refine ⟨fuel, endRun r₁, by rw [hbudgeted]; rfl, ?_⟩
  obtain rfl | ⟨hout, hcycles, hrunning, fuel₂, hrest⟩ := hend
  · exact .inl rfl
  · rw [← addCycles_beginRun hrunning, runLoop_zero_addCycles] at hrest
    obtain ⟨r₂, hresumed, rfl⟩ := Option.map_eq_some_iff.1 hrest
    refine .inr ⟨hout, fuel₂, endRun r₂, congrArg (Option.map endRun) hresumed, rfl, rfl, ?_⟩
    exact (congrArg (· + r₂.cycles) hcycles).trans (Nat.add_comm _ _)

/-! ### Halt -/

/-- Settles O24: the step of row 0xD leaves a Halted state, at which the loop returns. -/
theorem haltEndsTheRun : Obligations.HaltEndsTheRun := by
  refine ⟨fun w hw => decode_of_row hw, execHlt_eq, fun s hs h => step_of_row hs h, fun max fuel s hs h hbudget => ?_⟩
  exact runLoop_halts max fuel s _ ((budgetSpent_eq_false_iff max s).2 hbudget) (step_of_row hs h) rfl

/-- Settles O50: the start of a run overwrites the status, and after a reset the core is not Halted. -/
theorem runAfterHaltFollowsHaltSticky : Obligations.RunAfterHaltFollowsHaltSticky := by
  refine ⟨fun params fuel max s status h => ?_, fun params fuel max s h hs => if_pos ⟨h, hs⟩,
    fun params fuel max s => ?_⟩
  · have hnot (t : State) : ¬ (params.haltSticky = true ∧ t.status = .halted) := fun hst => by
      cases h.symm.trans hst.1
    rw [runCommand_of_not_sticky (hnot _), runCommand_of_not_sticky (hnot s)]; rfl
  · rw [runCommand_defaultParams, runCommand_of_not_sticky fun hst => by cases hst.2]

end Sys2Proof.Machine

/-! The host's other commands (spec/70_reset_and_hazards.md R235): the test-only write and the reads. -/

namespace Sys2Proof.Machine

/-- Settles O55: the test-only write is an update of the instruction store alone, through its controller. -/
theorem imemWriteIsForTestBuilds : Obligations.ImemWriteIsForTestBuilds := by
  refine fun params fuel s a v => ⟨fun h => if_neg (Bool.eq_false_iff.1 h), fun h => ⟨_, if_pos h, fun b => ?_, ?_⟩⟩
  · exact imemRead_imemWrite s a b v
  · rw [imemWrite_eq]; rfl

/-- Settles O56: a word of the data store is read through its controller. -/
theorem hostReadsWithoutChange : Obligations.HostReadsWithoutChange := by
  refine fun params fuel s => ⟨rfl, rfl, rfl, rfl, rfl, rfl, fun a => ⟨fun ha => ?_, fun ha => ?_⟩⟩
  · exact congrArg (fun v => CommandResult.done s (.value (.word v))) (dmemRead_of_lt s ha)
  · exact congrArg (fun v => CommandResult.done s (.value (.word v))) (dmemRead_of_le s ha)

end Sys2Proof.Machine
